-- ==== Sys2Proof/Word.lean ====
section
/-!
DEFINITION. The bit-vector types of the unit: a register word, a byte lane of it, and a 64-bit block
(spec rules R10, R26, R31).
-/

namespace Sys2Proof

/-- A host-visible register: 32 bits (R10). -/
abbrev Word := BitVec 32

/-- One byte lane of a register, or one byte of a block in its 8-byte form (R26). -/
abbrev Byte := BitVec 8

/-- An ETC1 block, bit 63 most significant (R31). -/
abbrev Block := BitVec 64

end Sys2Proof
end

