-- ==== Sys2Proof/Config.lean ====
section
/-!
DEFINITION. The open parameters of the hardware that a model takes as arguments (R6, spec/93 U2 and
U4), their defaults, and the free values of the model.
-/

namespace Sys2Proof

/-- What the decoder does when a differential block's second code leaves [0, 31] (R6, R106). -/
inductive DiffOverflow where
  /-- The default: the code is clamped to [0, 31] and decoding goes on. -/
  | clamp
  /-- The admitted alternative: `fault DIFF_OVERFLOW`. -/
  | fault
  deriving DecidableEq, Repr

/-- What the unit does with an access that is not 32 bits wide, not at a multiple of 4 or unmapped
(R25, R127, spec/93 U2). -/
inductive IllegalAccess where
  /-- The spec's own treatment: the model stops with BUS_FAULT (R25). -/
  | fault
  /-- The alternative of U2: a read gives any value, a write is ignored. -/
  | goOn
  deriving DecidableEq, Repr

/-- The parameters of one codec on its platform; nothing the machine does changes them (R6). DESIGN
CHOICE (assumption log 20): R6 does not index DIFF_OVERFLOW by codec, and the model holds it, and the
treatment of illegal accesses, per codec, so codecs of one platform may differ in them. -/
structure Params where
  /-- DIFF_OVERFLOW of R6. -/
  diffOverflow : DiffOverflow
  /-- How an illegal access is treated (R25, R127). -/
  illegalAccess : IllegalAccess
  /-- Which of the platform's codecs this is: the i of INSTANCE_BASE(i) (R6). No register holds it
  (R132); it only keeps the free values of two codecs apart. -/
  unitId : Nat
  deriving DecidableEq, Repr

/-- The parameters after reset: clamp, the default of R6, and the fault of R25 for an illegal access. -/
def Config.defaultParams : Params :=
  { diffOverflow := .clamp, illegalAccess := .fault, unitId := 0 }

/-- FREE VALUE (assumption log 3). What codec `unitId`'s byte at `offset` of the register space holds
after its `epoch`-th reset while nothing has written it. It has no body, so no proof can see which
byte it is. -/
opaque Config.unspecifiedByte (unitId epoch offset : Nat) : Byte

/-- FREE VALUE (assumption log 3). What codec `unitId` answers to its `draw`-th illegal read (spec/93
U2; only with `illegalAccess = goOn`). It has no body. -/
opaque Config.unspecifiedResponse (unitId draw : Nat) : Word

end Sys2Proof
end

