-- ==== Sys2Proof/Syntax.lean ====
section
/-!
DEFINITION. The syntax the unit reads: the five rows of the opcode table (three command words, two
block formats; R30, R31, R37), the names of the registers (R23), the host's accesses (R9, R140) and
the host-program statements (R39).
-/

namespace Sys2Proof

/-- A block of the individual format (diff_bit = 0), field by field (R31). -/
structure IndBlock where
  r1 : BitVec 4
  r2 : BitVec 4
  g1 : BitVec 4
  g2 : BitVec 4
  b1 : BitVec 4
  b2 : BitVec 4
  table1 : BitVec 3
  table2 : BitVec 3
  flip : Bool
  idxMsb : BitVec 16
  idxLsb : BitVec 16
  deriving DecidableEq, Repr

/-- A block of the differential format (diff_bit = 1), field by field (R31). The deltas are the
signed values of the 3-bit two's-complement fields; `Instr.wf` holds them to [-4, 3]. -/
structure DiffBlock where
  r1 : BitVec 5
  dr : Int
  g1 : BitVec 5
  dg : Int
  b1 : BitVec 5
  db : Int
  table1 : BitVec 3
  table2 : BitVec 3
  flip : Bool
  idxMsb : BitVec 16
  idxLsb : BitVec 16
  deriving DecidableEq, Repr

/-- One constructor per row of the opcode table. -/
inductive Instr where
  /-- INIT: acquire the lookup state (R43). -/
  | init
  /-- COMPRESS: encode IN_PIX into OUT_BLOCK (R70); fields QUALITY and DITHER of R30. -/
  | compress (quality : BitVec 2) (dither : Bool)
  /-- DECOMPRESS: decode IN_BLOCK into OUT_PIX (R108); field PRESERVE_ALPHA of R30. -/
  | decompress (preserveAlpha : Bool)
  /-- ETC1_INDIVIDUAL: a block of the individual format, as the decoder runs it (R105, R107). -/
  | etc1Individual (b : IndBlock)
  /-- ETC1_DIFF: a block of the differential format, as the decoder runs it (R106, R107). -/
  | etc1Diff (b : DiffBlock)
  deriving DecidableEq, Repr

/-- The names of the register map (R23, R39). -/
inductive RegName where
  | cmd
  | status
  | inPix (i : Fin 16)
  | inBlockHi
  | inBlockLo
  | outBlockHi
  | outBlockLo
  | outPix (i : Fin 16)
  deriving DecidableEq, Repr

/-- What the outside world can do to one instance: a bus access at a byte offset with a width in
bytes (R9, R25), or the platform's reset (R140). -/
inductive HostEvent where
  | read (offset width : Nat)
  | write (offset width : Nat) (value : Word)
  | reset
  deriving DecidableEq, Repr

/-- A statement of a host program (R39). -/
inductive Stmt where
  | wr (r : RegName) (imm : Word)
  | rd (r : RegName)
  | init
  | compress (q : BitVec 2) (d : Bool)
  | decompress (a : Bool)
  deriving DecidableEq, Repr

end Sys2Proof
end

