-- ==== Sys2Proof/WellFormed.lean ====
section
/-!
DEFINITION. Which instructions are well formed. Every field but the three deltas has exactly the
width of its encoding, so the deltas' range is the one thing left to check (R31: "each a 3-bit
two's-complement value in [-4, 3]").
-/

namespace Sys2Proof

/-- A delta that its 3-bit field can hold (R31, R54). -/
def deltaInRange (d : Int) : Bool := decide (-4 ≤ d) && decide (d ≤ 3)

/-- The check, per constructor. -/
def Instr.wf : Instr → Bool
  | .init => true
  | .compress _ _ => true
  | .decompress _ => true
  | .etc1Individual _ => true
  | .etc1Diff b => deltaInRange b.dr && deltaInRange b.dg && deltaInRange b.db

end Sys2Proof
end

