-- ==== Sys2Proof/Decode.lean ====
section
/-!
DEFINITION. The decoder, total on any bytes, and after it the encoder. A command word is 32 bits
(R30, R121), a block is 64 bits (R31, R104); R37 says how each is read. As bytes a command word
stands in the register's own lanes, least significant first, and a block most significant byte first
(R26).
-/

namespace Sys2Proof

/-- Why bytes are no instruction. -/
inductive Reject where
  /-- A 32-bit word that is none of the legal forms of R30. -/
  | illegalCommand (w : Word)
  /-- Neither the 4 bytes of a command word nor the 8 bytes of a block. -/
  | badLength (n : Nat)
  deriving DecidableEq, Repr

/-- R121: the three legal forms; every other word is illegal (R30, R38). -/
def decodeCommand (w : Word) : Except Reject Instr :=
  if w.extractLsb' 0 4 = 1#4 ∧ w.extractLsb' 4 28 = 0#28 then
    .ok .init
  else if w.extractLsb' 0 4 = 2#4 ∧ w.extractLsb' 7 25 = 0#25 then
    .ok (.compress (w.extractLsb' 4 2) (w.getLsbD 6))
  else if w.extractLsb' 0 4 = 3#4 ∧ w.extractLsb' 8 24 = 0#24 ∧ w.extractLsb' 4 3 = 0#3 then
    .ok (.decompress (w.getLsbD 7))
  else
    .error (.illegalCommand w)

/-- R7: a 3-bit field read as a signed number, `v - 8` if its top bit is set. -/
def sext3 (v : BitVec 3) : Int := if v.getLsbD 2 then (v.toNat : Int) - 8 else (v.toNat : Int)

/-- The fields of an individual block (R31, R104, R105). -/
def indFields (blk : Block) : IndBlock where
  r1 := blk.extractLsb' 60 4
  r2 := blk.extractLsb' 56 4
  g1 := blk.extractLsb' 52 4
  g2 := blk.extractLsb' 48 4
  b1 := blk.extractLsb' 44 4
  b2 := blk.extractLsb' 40 4
  table1 := blk.extractLsb' 37 3
  table2 := blk.extractLsb' 34 3
  flip := blk.getLsbD 32
  idxMsb := blk.extractLsb' 16 16
  idxLsb := blk.extractLsb' 0 16

/-- The fields of a differential block (R31, R104, R106). -/
def diffFields (blk : Block) : DiffBlock where
  r1 := blk.extractLsb' 59 5
  dr := sext3 (blk.extractLsb' 56 3)
  g1 := blk.extractLsb' 51 5
  dg := sext3 (blk.extractLsb' 48 3)
  b1 := blk.extractLsb' 43 5
  db := sext3 (blk.extractLsb' 40 3)
  table1 := blk.extractLsb' 37 3
  table2 := blk.extractLsb' 34 3
  flip := blk.getLsbD 32
  idxMsb := blk.extractLsb' 16 16
  idxLsb := blk.extractLsb' 0 16

/-- R37: `blk[33]` alone selects the format. -/
def decodeBlock (blk : Block) : Instr :=
  if blk.getLsbD 33 then .etc1Diff (diffFields blk) else .etc1Individual (indFields blk)

/-- The bytes of a command word, lane 0 first (R26 item 4). -/
def commandBytes (w : Word) : List Byte :=
  [w.extractLsb' 0 8, w.extractLsb' 8 8, w.extractLsb' 16 8, w.extractLsb' 24 8]

/-- The bytes b0..b7 of a block: byte bk is `blk[63-8k : 56-8k]` (R26 item 3). -/
def blockBytes (blk : Block) : List Byte :=
  [blk.extractLsb' 56 8, blk.extractLsb' 48 8, blk.extractLsb' 40 8, blk.extractLsb' 32 8,
   blk.extractLsb' 24 8, blk.extractLsb' 16 8, blk.extractLsb' 8 8, blk.extractLsb' 0 8]

/-- The decoder: 4 bytes are a command word, 8 bytes a block. -/
def decode : List Byte → Except Reject Instr
  | [l0, l1, l2, l3] => decodeCommand (l3 ++ l2 ++ l1 ++ l0)
  | [b0, b1, b2, b3, b4, b5, b6, b7] => .ok (decodeBlock (b0 ++ b1 ++ b2 ++ b3 ++ b4 ++ b5 ++ b6 ++ b7))
  | bytes => .error (.badLength bytes.length)

/-! ### The encoder -/

/-- R30: the command words of the three commands. -/
def initWord : Word := 0x00000001#32

/-- R30: `0x00000002 | (q << 4) | (d << 6)`. -/
def compressWord (quality : BitVec 2) (dither : Bool) : Word :=
  0#25 ++ BitVec.ofBool dither ++ quality ++ 2#4

/-- R30: `0x00000003 | (a << 7)`. -/
def decompressWord (preserveAlpha : Bool) : Word :=
  0#24 ++ BitVec.ofBool preserveAlpha ++ 3#7

/-- R31, individual format; the packer's R100, R101, R103 write the same fields. -/
def encodeInd (b : IndBlock) : Block :=
  b.r1 ++ b.r2 ++ b.g1 ++ b.g2 ++ b.b1 ++ b.b2 ++ b.table1 ++ b.table2 ++ 0#1 ++ BitVec.ofBool b.flip
    ++ b.idxMsb ++ b.idxLsb

/-- R31, differential format; a delta d is stored as `d mod 8` (R102). -/
def encodeDiff (b : DiffBlock) : Block :=
  b.r1 ++ BitVec.ofInt 3 b.dr ++ b.g1 ++ BitVec.ofInt 3 b.dg ++ b.b1 ++ BitVec.ofInt 3 b.db
    ++ b.table1 ++ b.table2 ++ 1#1 ++ BitVec.ofBool b.flip ++ b.idxMsb ++ b.idxLsb

/-- The bytes of an instruction. -/
def encode : Instr → List Byte
  | .init => commandBytes initWord
  | .compress q d => commandBytes (compressWord q d)
  | .decompress a => commandBytes (decompressWord a)
  | .etc1Individual b => blockBytes (encodeInd b)
  | .etc1Diff b => blockBytes (encodeDiff b)

/-! ### The opcode table's numbering -/

/-- The bytes of an instruction whose bits the opcode table numbers as `w`: up to 32 bits a command
word, up to 64 bits a block (the table gives a block as one 64-bit number, R31). -/
def tableBytes (nbits w : Nat) : List Byte :=
  if nbits ≤ 32 then commandBytes (BitVec.ofNat 32 (w % 2 ^ nbits))
  else if nbits ≤ 64 then blockBytes (BitVec.ofNat 64 (w % 2 ^ nbits))
  else []

/-- The instruction the decoder reads from an instruction's bits as the opcode table numbers them. -/
def decodeTableWord (nbits w : Nat) : Option Instr :=
  match decode (tableBytes nbits w) with
  | .ok i => some i
  | .error _ => none

end Sys2Proof
end

