-- ==== Sys2Proof/Machine/Types.lean ====
section
/-!
DEFINITION. The plain data the stages of COMPRESS and DECOMPRESS pass to each other: colour triples
(R9), modes and qualities (R2, glossary), subblocks (R33), and the encoder's configuration tuple
(spec/43, introduction).
-/

namespace Sys2Proof.Machine

/-- A triple of integers: a pixel's channels, a code triple, an expanded colour or a channel sum (R9). -/
structure Rgb where
  r : Int
  g : Int
  b : Int
  deriving DecidableEq, Repr

/-- The 16 pixels of a tile by row-major number `i = 4y + x`. -/
abbrev Tile := Vector Rgb 16

/-- The colour mode of a block: `ind` is diff_bit = 0, `dif` is diff_bit = 1. -/
inductive Mode where
  | ind
  | dif
  deriving DecidableEq, Repr

/-- The three quality levels of the encoder (R2). -/
inductive Quality where
  | low
  | medium
  | high
  deriving DecidableEq, Repr

/-- The two subblocks of a block (R33). -/
inductive Sub where
  | one
  | two
  deriving DecidableEq, Repr

/-- The modifier-table store: 8 tables of 4 entries, each a 9-bit two's-complement value (R18, R41). -/
abbrev ModTable := Vector (Vector (BitVec 9) 4) 8

/-- One subblock of a configuration: code triple, table, the 8 pixel index values in the order of
the subblock's pixels, and the error (R64). -/
structure SubChoice where
  code : Rgb
  table : BitVec 3
  ks : List (BitVec 2)
  err : Int
  deriving DecidableEq, Repr

/-- The encoder's configuration `(m, f, (c_1, t_1, k_1, E_1), (c_2, t_2, k_2, E_2))`. -/
structure Configuration where
  mode : Mode
  flip : Bool
  sub1 : SubChoice
  sub2 : SubChoice
  deriving DecidableEq, Repr

end Sys2Proof.Machine
end

