-- ==== Sys2Proof/Machine/Tables.lean ====
section
/-!
DEFINITION. The constants of the modifier-table store (R40, R41).
-/

namespace Sys2Proof.Machine

/-- R41: the four entries +a, +b, -a, -b of a table with magnitudes a and b. -/
def modEntries (a b : Int) : Vector (BitVec 9) 4 :=
  #v[BitVec.ofInt 9 a, BitVec.ofInt 9 b, BitVec.ofInt 9 (-a), BitVec.ofInt 9 (-b)]

/-- R40: the magnitudes of tables 0 to 7. -/
def modConstants : ModTable :=
  #v[modEntries 2 8, modEntries 5 17, modEntries 9 29, modEntries 13 42,
     modEntries 18 60, modEntries 24 80, modEntries 33 106, modEntries 47 183]

end Sys2Proof.Machine
end

