-- ==== Sys2Proof/Machine/State.lean ====
section
/-!
DEFINITION. The state of one instance, plain data: the register file of spec/10 (R12 to R17), the
modifier-table store (R18), and the model's own fields (parameters, reset count, the host's pending
accesses, the data the bus last returned). R10 and R20 say there is nothing else.
-/

namespace Sys2Proof.Machine

/-- The error codes of STATUS.LAST_ERR; codes 3 to 15 are never produced (R120). -/
inductive ErrCode where
  | none
  | illegalCommand
  | notInitialized
  deriving DecidableEq, Repr

/-- STATUS, by its fields; its reserved bits are hardwired 0 and are not stored (R13). -/
structure Status where
  initDone : Bool
  errSticky : Bool
  lastErr : ErrCode
  valid : Bool
  deriving DecidableEq, Repr

/-- A 32-bit data register with its definedness: bit n of `written` says that byte n, bits
[8n+7:8n], has been written since reset (R17, R21). -/
structure DataReg where
  value : Word
  written : BitVec 4
  deriving DecidableEq, Repr

/-- Why the machine stops (R127). All are raised by what a host does, and every register is as it
was before the access or command. -/
inductive Fault where
  /-- Raised by a host access that is not 32 bits, not at a multiple of 4, or unmapped (R25),
  with the parameter `illegalAccess = fault`. Safe: the hardware's response is UNSPECIFIED and the
  model goes no further. -/
  | busFault
  /-- Raised by a differential block whose second code leaves [0, 31], with the parameter
  `diffOverflow = fault` (R106). Safe. -/
  | diffOverflow
  deriving DecidableEq, Repr

/-- What the model gives no meaning to. -/
inductive Refusal where
  /-- Raised by an arm of `exec` whose instruction has no meaning yet. Safe. -/
  | notModelled (mnemonic : String)
  /-- Raised by a platform access that no instance's register space holds: it reaches no codec (R6,
  R23), so it is the platform's own matter. Safe. -/
  | noInstance
  deriving DecidableEq, Repr

structure State where
  /-- STATUS (R13). -/
  status : Status
  /-- IN_PIX[0..15] (R14). -/
  inPix : Vector DataReg 16
  /-- IN_BLOCK_HI (R15). -/
  inBlockHi : DataReg
  /-- IN_BLOCK_LO (R15). -/
  inBlockLo : DataReg
  /-- OUT_BLOCK_HI (R16). -/
  outBlockHi : DataReg
  /-- OUT_BLOCK_LO (R16). -/
  outBlockLo : DataReg
  /-- OUT_PIX[0..15] (R17). -/
  outPix : Vector DataReg 16
  /-- The modifier-table store MOD (R18). -/
  modTable : ModTable
  /-- The open parameters of R6, which R6 makes arguments of the model (assumption log 2). -/
  params : Params
  /-- The model's own: how many resets there have been, the argument of the free value (log 3). -/
  epoch : Nat
  /-- The model's own: how many free answers illegal reads have drawn (log 3). -/
  draws : Nat
  /-- The model's own: the host's accesses still to be performed, in order (R11, R28; log 1). -/
  queue : List HostEvent
  /-- The model's own: what the bus returned for the last access, `none` after a write (R9; log 1). -/
  hostData : Option Word
  deriving DecidableEq, Repr

/-- A data register after reset: unwritten (R21, R22). Its value field is 0 (assumption log 4) and
no operation ever shows a byte of it that is not written. -/
def DataReg.unwritten : DataReg := { value := 0#32, written := 0#4 }

/-- STATUS after reset: 0x00000000 (R22, R141). -/
def Status.reset : Status := { initDone := false, errSticky := false, lastErr := .none, valid := false }

/-- The state right after reset (R22, R141), with no access pending. -/
def State.reset : State where
  status := Status.reset
  inPix := Vector.replicate 16 DataReg.unwritten
  inBlockHi := DataReg.unwritten
  inBlockLo := DataReg.unwritten
  outBlockHi := DataReg.unwritten
  outBlockLo := DataReg.unwritten
  outPix := Vector.replicate 16 DataReg.unwritten
  modTable := modConstants
  params := Config.defaultParams
  epoch := 0
  draws := 0
  queue := []
  hostData := none

end Sys2Proof.Machine
end

