-- ==== Sys2Proof/Machine/Flags.lean ====
section
/-!
DEFINITION. The flags of STATUS: the word a read of STATUS gives, and the updates of its fields
(R13, R43, R109, R120, R123, R125).
-/

namespace Sys2Proof.Machine

/-- R120: the codes of LAST_ERR. -/
def ErrCode.bits : ErrCode → BitVec 4
  | .none => 0#4
  | .illegalCommand => 1#4
  | .notInitialized => 2#4

/-- R13: INIT_DONE [0], ERR_STICKY [1], 0 [3:2], LAST_ERR [7:4], VALID [8], 0 [31:9]. -/
def Status.word (st : Status) : Word :=
  0#23 ++ BitVec.ofBool st.valid ++ st.lastErr.bits ++ 0#2 ++ BitVec.ofBool st.errSticky
    ++ BitVec.ofBool st.initDone

/-- R43: INIT sets INIT_DONE. -/
def Status.setInitDone (st : Status) : Status := { st with initDone := true }

/-- R108, R109: DECOMPRESS sets VALID. -/
def Status.setValid (st : Status) : Status := { st with valid := true }

/-- R125: a command that completes writes LAST_ERR 0. ERR_STICKY stays. -/
def Status.succeed (st : Status) : Status := { st with lastErr := .none }

/-- R123: a command that fails records its code and sets ERR_STICKY. -/
def Status.fail (st : Status) (code : ErrCode) : Status := { st with lastErr := code, errSticky := true }

end Sys2Proof.Machine
end

