-- ==== Sys2Proof/Machine/Ops.lean ====
section
/-!
DEFINITION. The named operations over registers: data registers with their definedness (R17, R21),
the register map (R23), what an error does (R123) and what a success does (R125), and the writes the
commands and the host perform.
-/

namespace Sys2Proof.Machine

/-! ### One data register -/

/-- Every byte has been written (R21). -/
def DataReg.isWritten (d : DataReg) : Bool := d.written == 0xF#4

/-- A whole-word write (R25: the only host write). -/
def DataReg.store (w : Word) : DataReg := { value := w, written := 0xF#4 }

/-- DECOMPRESS's write of R [7:0], G [15:8] and B [23:16]; the A byte keeps its value and its
written or unwritten status (R17, R108). -/
def DataReg.storeRgb (p : Rgb) (d : DataReg) : DataReg where
  value := d.value.extractLsb' 24 8 ++ BitVec.ofInt 8 p.b ++ BitVec.ofInt 8 p.g ++ BitVec.ofInt 8 p.r
  written := d.written ||| 0x7#4

/-- DECOMPRESS's write of A [31:24] with 255 (R108). -/
def DataReg.storeAlpha255 (d : DataReg) : DataReg where
  value := 255#8 ++ d.value.extractLsb' 0 24
  written := d.written ||| 0x8#4

/-- The byte a read shows at lane n: the register's own when written, else the free value drawn for
this byte at this reset (R127, spec/93 U3; assumption log 7). -/
def DataReg.byteShown (unitId epoch offset : Nat) (d : DataReg) (n : Nat) : Byte :=
  if d.written.getLsbD n then d.value.extractLsb' (8 * n) 8
  else Config.unspecifiedByte unitId epoch (offset + n)

/-- The word a read shows: the register's value when every byte is written. -/
def DataReg.wordShown (unitId epoch offset : Nat) (d : DataReg) : Word :=
  if d.isWritten then d.value
  else d.byteShown unitId epoch offset 3 ++ d.byteShown unitId epoch offset 2
    ++ d.byteShown unitId epoch offset 1 ++ d.byteShown unitId epoch offset 0

/-! ### The register map -/

/-- R23: the byte offset of each register. -/
def regOffset : RegName → Nat
  | .cmd => 0x000
  | .status => 0x004
  | .inPix i => 0x010 + 4 * i.val
  | .inBlockHi => 0x050
  | .inBlockLo => 0x054
  | .outBlockHi => 0x058
  | .outBlockLo => 0x05C
  | .outPix i => 0x060 + 4 * i.val

/-- R23: the register whose word starts at byte offset `off`; `none` where nothing is mapped. -/
def regAt (off : Nat) : Option RegName :=
  if off % 4 ≠ 0 then none
  else if off = 0x000 then some .cmd
  else if off = 0x004 then some .status
  else if off < 0x010 then none
  else if off < 0x050 then some (.inPix (Fin.ofNat 16 ((off - 0x010) / 4)))
  else if off = 0x050 then some .inBlockHi
  else if off = 0x054 then some .inBlockLo
  else if off = 0x058 then some .outBlockHi
  else if off = 0x05C then some .outBlockLo
  else if off < 0x0A0 then some (.outPix (Fin.ofNat 16 ((off - 0x060) / 4)))
  else none

/-- The storage behind a data register's name; CMD and STATUS are none of them (R12, R13, R21). -/
def State.dataReg (s : State) : RegName → Option DataReg
  | .cmd => none
  | .status => none
  | .inPix i => some s.inPix[i]
  | .inBlockHi => some s.inBlockHi
  | .inBlockLo => some s.inBlockLo
  | .outBlockHi => some s.outBlockHi
  | .outBlockLo => some s.outBlockLo
  | .outPix i => some s.outPix[i]

/-- The word a read of a data register gives: a byte nothing has written since reset is a free value, so
no read stops for want of a write (R21, R127, spec/93 U3; assumption log 7). -/
def State.shown (s : State) (n : RegName) (d : DataReg) : Word :=
  d.wordShown s.params.unitId s.epoch (regOffset n)

/-- What a host write of a whole word stores. CMD stores nothing (R12), and writes to STATUS and
OUT_BLOCK are ignored (R24). -/
def State.storeReg (s : State) (n : RegName) (w : Word) : State :=
  match n with
  | .cmd => s
  | .status => s
  | .inPix i => { s with inPix := s.inPix.set i (DataReg.store w) }
  | .inBlockHi => { s with inBlockHi := DataReg.store w }
  | .inBlockLo => { s with inBlockLo := DataReg.store w }
  | .outBlockHi => s
  | .outBlockLo => s
  | .outPix i => { s with outPix := s.outPix.set i (DataReg.store w) }

/-! ### What a command does to the registers -/

/-- `raise ERR(code)`: exactly LAST_ERR and ERR_STICKY change, and the command ends (R123). This is
all the unit has of taking an exception: nothing is saved and nothing is entered, so there is no
return from one either (R128, R129). -/
def State.raiseError (code : ErrCode) (s : State) : State := { s with status := s.status.fail code }

/-- The end of a command that completes: LAST_ERR becomes 0 (R125). -/
def State.commandDone (s : State) : State := { s with status := s.status.succeed }

/-- INIT_DONE becomes 1 (R43). -/
def State.markInitDone (s : State) : State := { s with status := s.status.setInitDone }

/-- VALID becomes 1 (R109). -/
def State.markValid (s : State) : State := { s with status := s.status.setValid }

/-- COMPRESS's write of both halves of OUT_BLOCK (R79). -/
def State.writeOutBlock (blk : Block) (s : State) : State :=
  { s with
    outBlockHi := DataReg.store (blk.extractLsb' 32 32)
    outBlockLo := DataReg.store (blk.extractLsb' 0 32) }

/-- The decoder's write of R, G and B of the 16 OUT_PIX words (R108). -/
def State.writeOutRgb (pixels : Tile) (s : State) : State :=
  { s with outPix := Vector.ofFn fun i : Fin 16 => (s.outPix[i]).storeRgb pixels[i] }

/-- DECOMPRESS's write of the 16 A bytes: 255 each unless PRESERVE_ALPHA is 1 (R108). -/
def State.writeOutAlpha (preserve : Bool) (s : State) : State :=
  if preserve then s else { s with outPix := Vector.ofFn fun i : Fin 16 => (s.outPix[i]).storeAlpha255 }

/-- The platform's reset of this instance (R140, R141): every register as after reset. The
parameters are the instance's own and stay, the accesses still to come stay, and a new set of
unspecified values is drawn. -/
def State.platformReset (s : State) : State :=
  { State.reset with params := s.params, epoch := s.epoch + 1, draws := s.draws, queue := s.queue }

end Sys2Proof.Machine
end

