-- ==== Sys2Proof/Machine/Operands.lean ====
section
/-!
DEFINITION. Operand forms and the primitives of R7, R8: the pixel operand (IN_PIX), the block
operand (IN_BLOCK), the QUALITY field, the geometry of a tile (R32, R33), colour expansion (R35) and
`argmin`.
-/

namespace Sys2Proof.Machine

/-! ### Primitives -/

/-- R7. -/
def clamp (v lo hi : Int) : Int := if v < lo then lo else if hi < v then hi else v

/-- R8: the FIRST element of the non-empty list `first :: rest` at which `f` takes its minimum; a
later one replaces the best only when strictly smaller. -/
def argmin {α : Type} (f : α → Int) (first : α) : List α → α
  | [] => first
  | c :: rest => argmin f (if f c < f first then c else first) rest

/-- R8 on a list that may be empty. -/
def firstMin {α : Type} (f : α → Int) : List α → Option α
  | [] => none
  | c :: rest => some (argmin f c rest)

/-! ### Geometry -/

/-- The 16 row-major pixel numbers in order. -/
def pixelNumbers : List (Fin 16) := [0, 1, 2, 3, 4, 5, 6, 7, 8, 9, 10, 11, 12, 13, 14, 15]

/-- R32: the position number `j = 4 (i mod 4) + floor(i / 4)` of row-major pixel i. -/
def positionOf (i : Fin 16) : Fin 16 := Fin.ofNat 16 (4 * (i.val % 4) + i.val / 4)

/-- R32: the row-major number of the pixel at position j (x = j div 4, y = j mod 4). -/
def pixelAt (j : Fin 16) : Fin 16 := Fin.ofNat 16 (4 * (j.val % 4) + j.val / 4)

/-- R33: the subblock of row-major pixel i: left or right half (flip 0), top or bottom half (flip 1). -/
def subOf (flip : Bool) (i : Fin 16) : Sub :=
  if flip then (if i.val / 4 < 2 then .one else .two) else (if i.val % 4 < 2 then .one else .two)

/-- The 8 pixels of a subblock, in row-major order. -/
def members (flip : Bool) (sub : Sub) : List (Fin 16) := pixelNumbers.filter fun i => subOf flip i == sub

/-- The subblock's pixels out of a tile (R50, R66). -/
def subPixels (d : Tile) (flip : Bool) (sub : Sub) : List Rgb := (members flip sub).map fun i => d[i]

/-! ### Colours -/

/-- R35: `expand4(c) = 17c`. -/
def expand4 (c : Int) : Int := 17 * c

/-- R35: `expand5(c) = 8c + floor(c / 4)`. -/
def expand5 (c : Int) : Int := 8 * c + c / 4

/-- R35. -/
def expand (m : Mode) (c : Int) : Int :=
  match m with
  | .ind => expand4 c
  | .dif => expand5 c

/-- R57: the expanded base colour of a code triple. -/
def expandRgb (m : Mode) (c : Rgb) : Rgb := { r := expand m c.r, g := expand m c.g, b := expand m c.b }

/-- R26 item 1: R [7:0], G [15:8], B [23:16] of a pixel word; A is not read. -/
def rgbOfWord (w : Word) : Rgb where
  r := (w.extractLsb' 0 8).toNat
  g := (w.extractLsb' 8 8).toNat
  b := (w.extractLsb' 16 8).toNat

/-- R39: `rgba(r, g, b, a)`, the pixel word of four channels. -/
def rgba (r g b a : Byte) : Word := a ++ b ++ g ++ r

/-! ### The operands of the commands -/

/-- R71: the QUALITY field; code 3 runs as high. -/
def qualityOf (q : BitVec 2) : Quality :=
  if q = 0#2 then .low else if q = 1#2 then .medium else .high

/-- The 16 IN_PIX words as a tile (R14, R70); an unwritten byte of one is a free value (R127, U3). -/
def readPixels (s : State) : Tile := Vector.ofFn fun i : Fin 16 => rgbOfWord (s.shown (.inPix i) s.inPix[i])

/-- `{IN_BLOCK_HI, IN_BLOCK_LO}` (R15, R108); an unwritten half is a free value (R127, U3). -/
def readBlock (s : State) : Block := s.shown .inBlockHi s.inBlockHi ++ s.shown .inBlockLo s.inBlockLo

end Sys2Proof.Machine
end

