-- ==== Sys2Proof/Machine/Lut.lean ====
section
/-!
DEFINITION. INIT (R43), the modifier lookup (R34, R41) and the pixel reconstruction (R44) that the
selector and the decoder share.
-/

namespace Sys2Proof.Machine

/-- `MOD[t][k]`, a 9-bit two's-complement entry (R41). -/
def modEntry (tables : ModTable) (t : BitVec 3) (k : BitVec 2) : Int := ((tables[t.toFin])[k.toFin]).toInt

/-- R44: one signed modifier added to the three channels, each clamped to [0, 255]. -/
def recon (tables : ModTable) (base : Rgb) (t : BitVec 3) (k : BitVec 2) : Rgb where
  r := clamp (base.r + modEntry tables t k) 0 255
  g := clamp (base.g + modEntry tables t k) 0 255
  b := clamp (base.b + modEntry tables t k) 0 255

/-- R43: INIT sets INIT_DONE and clears LAST_ERR; nothing else changes. -/
def execInit (s : State) : Host.Outcome State Fault Refusal := .next s.markInitDone.commandDone

end Sys2Proof.Machine
end

