-- ==== Sys2Proof/Machine/Quantizer.lean ====
section
/-!
DEFINITION. The colour quantizer (R50 to R59): channel sums, nearest-level quantization, the delta
constraint and the candidate lists.
-/

namespace Sys2Proof.Machine

/-- R51: the largest code of a mode. -/
def maxCode : Mode → Nat
  | .ind => 15
  | .dif => 31

/-- R51: the codes above 0, in ascending order. -/
def codesAbove0 (m : Mode) : List Int := (List.range (maxCode m)).map fun n : Nat => (n : Int) + 1

/-- R51: `abs(8 * expand(c, m) - total)`. -/
def levelDistance (m : Mode) (total c : Int) : Int := ((8 * expand m c - total).natAbs : Int)

/-- R51: the code whose expanded level is nearest total / 8; a tie goes to the smaller code. -/
def quantize (total : Int) (m : Mode) : Int := argmin (levelDistance m total) 0 (codesAbove0 m)

/-- R52, R53: channel by channel. -/
def quantizeRgb (sums : Rgb) (m : Mode) : Rgb :=
  { r := quantize sums.r m, g := quantize sums.g m, b := quantize sums.b m }

/-- R50: the channel sums of a subblock's pixels. -/
def channelSums (pixels : List Rgb) : Rgb where
  r := (pixels.map Rgb.r).sum
  g := (pixels.map Rgb.g).sum
  b := (pixels.map Rgb.b).sum

/-- R54: every channel's delta is in [-4, 3]. -/
def deltaOk (c1 c2 : Rgb) : Bool :=
  deltaInRange (c2.r - c1.r) && deltaInRange (c2.g - c1.g) && deltaInRange (c2.b - c1.b)

/-- The values a channel's offset takes, ascending (R56). -/
def offsets : List Int := [-1, 0, 1]

/-- R56: NEIGH, in lexicographic order with dr most significant. -/
def neighbourhood : List Rgb :=
  (offsets.flatMap fun dr => offsets.flatMap fun dg => offsets.map fun db => { r := dr, g := dg, b := db }).filter
    fun d => d != { r := 0, g := 0, b := 0 }

/-- A channel code the mode has (R56). -/
def codeInRange (m : Mode) (c : Int) : Bool := decide (0 ≤ c) && decide (c ≤ maxCode m)

/-- A code triple the mode has (R56). -/
def rgbInRange (m : Mode) (c : Rgb) : Bool := codeInRange m c.r && codeInRange m c.g && codeInRange m c.b

/-- R56: a neighbour of a code triple. -/
def shift (c d : Rgb) : Rgb := { r := c.r + d.r, g := c.g + d.g, b := c.b + d.b }

/-- The candidates after the first: none at low and medium (R55); at high the neighbours inside the
code range (R56). -/
def neighbours (q : Quality) (m : Mode) (c : Rgb) : List Rgb :=
  match q with
  | .low => []
  | .medium => []
  | .high => (neighbourhood.map (shift c)).filter (rgbInRange m)

/-- R55, R56: the ordered candidate list. -/
def candidates (q : Quality) (m : Mode) (c : Rgb) : List Rgb := c :: neighbours q m c

end Sys2Proof.Machine
end

