-- ==== Sys2Proof/Machine/Selector.lean ====
section
/-!
DEFINITION. The intensity table selector (R60 to R68).
-/

namespace Sys2Proof.Machine

/-- R60: the sum of the three channels' squared differences. -/
def squaredError (a p : Rgb) : Int := (a.r - p.r) ^ 2 + (a.g - p.g) ^ 2 + (a.b - p.b) ^ 2

/-- R60. -/
def pixelError (tables : ModTable) (base : Rgb) (t : BitVec 3) (k : BitVec 2) (p : Rgb) : Int :=
  squaredError (recon tables base t k) p

/-- R61: the index of least error; a tie goes to the smallest k. -/
def bestIndex (tables : ModTable) (base : Rgb) (t : BitVec 3) (p : Rgb) : BitVec 2 :=
  argmin (fun k => pixelError tables base t k p) 0#2 [1#2, 2#2, 3#2]

/-- R62: the accumulated error of a table. -/
def tableError (tables : ModTable) (base : Rgb) (t : BitVec 3) (pixels : List Rgb) : Int :=
  (pixels.map fun p => pixelError tables base t (bestIndex tables base t p) p).sum

/-- R63: the table of least accumulated error; a tie goes to the smallest t. -/
def bestTable (tables : ModTable) (base : Rgb) (pixels : List Rgb) : BitVec 3 :=
  argmin (fun t => tableError tables base t pixels) 0#3 [1#3, 2#3, 3#3, 4#3, 5#3, 6#3, 7#3]

/-- R64: `select` for the base colour that `code` expands to in mode m. -/
def select (tables : ModTable) (pixels : List Rgb) (m : Mode) (code : Rgb) : SubChoice :=
  let base := expandRgb m code
  let t := bestTable tables base pixels
  { code := code
    table := t
    ks := pixels.map (bestIndex tables base t)
    err := tableError tables base t pixels }

end Sys2Proof.Machine
end

