-- ==== Sys2Proof/Machine/Dither.lean ====
section
/-!
DEFINITION. The dither preprocessor (R90 to R96). The three channels are processed independently and
identically (R91), so a channel's 16 values are scanned on their own.
-/

namespace Sys2Proof.Machine

/-- R90: all 16 pixels have equal R, G and B. -/
def isFlat (p : Tile) : Bool := pixelNumbers.all fun i => p[i] == p[(0 : Fin 16)]

/-- R90: every channel value of every pixel is a multiple of 17. -/
def onGrid4 (p : Tile) : Bool :=
  pixelNumbers.all fun i => p[i].r % 17 == 0 && p[i].g % 17 == 0 && p[i].b % 17 == 0

/-- Adds a share to accumulator i. -/
def addShare (acc : List Int) (i : Nat) (share : Int) : List Int := acc.modify i (· + share)

/-- R93: the shares of pixel i's error e; a share that would leave the tile is dropped. -/
def spreadError (i : Nat) (e : Int) (acc : List Int) : List Int :=
  let right := i % 4 < 3
  let left := 0 < i % 4
  let down := i / 4 < 3
  let acc := if right then addShare acc (i + 1) (7 * e) else acc
  let acc := if down ∧ left then addShare acc (i + 3) (3 * e) else acc
  let acc := if down then addShare acc (i + 4) (5 * e) else acc
  if down ∧ right then addShare acc (i + 5) (1 * e) else acc

/-- R92: the corrected value, `floor((acc + 8) / 16)` added and clamped. -/
def corrected (value acc : Int) : Int := clamp (value + (acc + 8) / 16) 0 255

/-- R92: the nearest 5-bit level, ties down. -/
def nearestLevel5 (v : Int) : Int := expand5 (quantize (8 * v) .dif)

/-- R91 to R93: the scan of one channel in row-major order from pixel i on. -/
def ditherScan (i : Nat) (acc : List Int) : List Int → List Int
  | [] => []
  | value :: rest =>
    let v := corrected value (acc.getD i 0)
    let q := nearestLevel5 v
    q :: ditherScan (i + 1) (spreadError i (v - q) acc) rest

/-- R91: one channel, every accumulator 0 at the start. -/
def ditherChannel (values : List Int) : List Int := ditherScan 0 (List.replicate 16 0) values

/-- R90 to R93: the dithered tile; alpha takes no part (R96). -/
def dither (p : Tile) : Tile :=
  if isFlat p || onGrid4 p then p
  else
    let rs := ditherChannel (p.toList.map Rgb.r)
    let gs := ditherChannel (p.toList.map Rgb.g)
    let bs := ditherChannel (p.toList.map Rgb.b)
    Vector.ofFn fun i : Fin 16 => { r := rs.getD i.val 0, g := gs.getD i.val 0, b := bs.getD i.val 0 }

end Sys2Proof.Machine
end

