-- ==== Sys2Proof/Machine/Search.lean ====
section
/-!
DEFINITION. The partition and mode search (R72 to R78).
-/

namespace Sys2Proof.Machine

/-- R76: the total error of a configuration. -/
def Configuration.total (c : Configuration) : Int := c.sub1.err + c.sub2.err

/-- R55, R56, R64: every candidate of a subblock, evaluated, in list order; the first on its own. -/
def evaluated (tables : ModTable) (pixels : List Rgb) (q : Quality) (m : Mode) : SubChoice × List SubChoice :=
  let c := quantizeRgb (channelSums pixels) m
  (select tables pixels m c, (neighbours q m c).map (select tables pixels m))

/-- R74: the two subblocks of an individual combination are chosen independently. -/
def evaluateInd (tables : ModTable) (d : Tile) (q : Quality) (flip : Bool) : Configuration :=
  let e1 := evaluated tables (subPixels d flip .one) q .ind
  let e2 := evaluated tables (subPixels d flip .two) q .ind
  { mode := .ind
    flip := flip
    sub1 := argmin SubChoice.err e1.1 e1.2
    sub2 := argmin SubChoice.err e2.1 e2.2 }

/-- R75: the pairs of candidates that satisfy the delta constraint, subblock 1 in the outer loop. -/
def diffPairs (flip : Bool) (l1 l2 : List SubChoice) : List Configuration :=
  (l1.flatMap fun a => l2.map fun b => { mode := .dif, flip := flip, sub1 := a, sub2 := b : Configuration }).filter
    fun c => deltaOk c.sub1.code c.sub2.code

/-- R75: the first pair of least total, or `none` where no pair is representable. -/
def evaluateDif (tables : ModTable) (d : Tile) (q : Quality) (flip : Bool) : Option Configuration :=
  let e1 := evaluated tables (subPixels d flip .one) q .dif
  let e2 := evaluated tables (subPixels d flip .two) q .dif
  firstMin Configuration.total (diffPairs flip (e1.1 :: e1.2) (e2.1 :: e2.2))

/-- R74, R75. -/
def evaluate (tables : ModTable) (d : Tile) (q : Quality) (combo : Mode × Bool) : Option Configuration :=
  match combo.1 with
  | .ind => some (evaluateInd tables d q combo.2)
  | .dif => evaluateDif tables d q combo.2

/-- R73: the combinations of a quality, in scan order. -/
def combos : Quality → List (Mode × Bool)
  | .low => [(.ind, false)]
  | .medium => [(.dif, false), (.dif, true), (.ind, false), (.ind, true)]
  | .high => [(.dif, false), (.dif, true), (.ind, false), (.ind, true)]

/-- R77: the first representable combination of least total. (IND, 0) is in every list, so there is
always one and the last alternative is never taken (`search_eq_firstMin` in Laws/Codec.lean). -/
def search (tables : ModTable) (d : Tile) (q : Quality) : Configuration :=
  match firstMin Configuration.total ((combos q).filterMap (evaluate tables d q)) with
  | some best => best
  | none => evaluateInd tables d q false

/-- R78: the sums of pixel minus chosen modifier. -/
def residualSums (tables : ModTable) (pixels : List Rgb) (c : SubChoice) : Rgb :=
  channelSums ((pixels.zip c.ks).map fun pk =>
    let m := modEntry tables c.table pk.2
    { r := pk.1.r - m, g := pk.1.g - m, b := pk.1.b - m })

/-- R78: the configuration the pass derives, whether or not it is kept. -/
def rederived (tables : ModTable) (d : Tile) (best : Configuration) : Configuration :=
  let p1 := subPixels d best.flip .one
  let p2 := subPixels d best.flip .two
  { mode := best.mode
    flip := best.flip
    sub1 := select tables p1 best.mode (quantizeRgb (residualSums tables p1 best.sub1) best.mode)
    sub2 := select tables p2 best.mode (quantizeRgb (residualSums tables p2 best.sub2) best.mode) }

/-- R78: the one refinement pass; kept only if representable and strictly better. -/
def refine (tables : ModTable) (d : Tile) (best : Configuration) : Configuration :=
  let r := rederived tables d best
  if best.mode = .dif ∧ deltaOk r.sub1.code r.sub2.code = false then best
  else if r.total < best.total then r
  else best

/-- R70, R73 to R78: the configuration COMPRESS packs. -/
def chooseConfiguration (tables : ModTable) (d : Tile) (q : Quality) : Configuration :=
  match q with
  | .low => search tables d .low
  | .medium => search tables d .medium
  | .high => refine tables d (search tables d .high)

/-- R72: the quantizer input D. -/
def quantizerInput (ditherOn : Bool) (p : Tile) : Tile := if ditherOn then dither p else p

end Sys2Proof.Machine
end

