-- ==== Sys2Proof/Machine/Codec.lean ====
section
/-!
DEFINITION. The block codec: the packer (R100 to R103), the unpacker and pixel reconstructor (R104 to
R107), and the meanings of the two block formats, ETC1_INDIVIDUAL and ETC1_DIFF.
-/

namespace Sys2Proof.Machine

/-! ### Packer -/

/-- The pixel index value of row-major pixel i: the entry of its subblock's list (R103). -/
def Configuration.indexOf (c : Configuration) (i : Fin 16) : BitVec 2 :=
  let ks := match subOf c.flip i with
    | .one => c.sub1.ks
    | .two => c.sub2.ks
  (((members c.flip (subOf c.flip i)).zip ks).lookup i).getD 0#2

/-- The bit vector whose bit j is `f j`. -/
def bitsOf (f : Nat → Bool) : (n : Nat) → BitVec n
  | 0 => 0#0
  | n + 1 => (bitsOf f n).cons (f n)

/-- R103: the msb half of the index field, bit j the msb of the pixel at position j. -/
def packMsb (c : Configuration) : BitVec 16 := bitsOf (fun j => (c.indexOf (pixelAt (Fin.ofNat 16 j))).getLsbD 1) 16

/-- R103: the lsb half of the index field. -/
def packLsb (c : Configuration) : BitVec 16 := bitsOf (fun j => (c.indexOf (pixelAt (Fin.ofNat 16 j))).getLsbD 0) 16

/-- R101: the fields of an individual configuration. -/
def packInd (c : Configuration) : IndBlock where
  r1 := BitVec.ofInt 4 c.sub1.code.r
  r2 := BitVec.ofInt 4 c.sub2.code.r
  g1 := BitVec.ofInt 4 c.sub1.code.g
  g2 := BitVec.ofInt 4 c.sub2.code.g
  b1 := BitVec.ofInt 4 c.sub1.code.b
  b2 := BitVec.ofInt 4 c.sub2.code.b
  table1 := c.sub1.table
  table2 := c.sub2.table
  flip := c.flip
  idxMsb := packMsb c
  idxLsb := packLsb c

/-- R102: the fields of a differential configuration. -/
def packDiff (c : Configuration) : DiffBlock where
  r1 := BitVec.ofInt 5 c.sub1.code.r
  dr := c.sub2.code.r - c.sub1.code.r
  g1 := BitVec.ofInt 5 c.sub1.code.g
  dg := c.sub2.code.g - c.sub1.code.g
  b1 := BitVec.ofInt 5 c.sub1.code.b
  db := c.sub2.code.b - c.sub1.code.b
  table1 := c.sub1.table
  table2 := c.sub2.table
  flip := c.flip
  idxMsb := packMsb c
  idxLsb := packLsb c

/-- R100 to R103: the block of a configuration. -/
def pack (c : Configuration) : Block :=
  match c.mode with
  | .ind => encodeInd (packInd c)
  | .dif => encodeDiff (packDiff c)

/-! ### Unpacker -/

/-- R104: `k(x, y) = {blk[16 + j], blk[j]}` of row-major pixel i at position j. -/
def indexFromField (msb lsb : BitVec 16) (i : Fin 16) : BitVec 2 :=
  BitVec.ofBool (msb.getLsbD (positionOf i).val) ++ BitVec.ofBool (lsb.getLsbD (positionOf i).val)

/-- What the decoder reconstructs from: two base colours, two tables, the geometry and the index
field. -/
structure Unpacked where
  base1 : Rgb
  base2 : Rgb
  table1 : BitVec 3
  table2 : BitVec 3
  flip : Bool
  idxMsb : BitVec 16
  idxLsb : BitVec 16
  deriving DecidableEq, Repr

/-- R107: one pixel. -/
def pixelOf (tables : ModTable) (u : Unpacked) (i : Fin 16) : Rgb :=
  match subOf u.flip i with
  | .one => recon tables u.base1 u.table1 (indexFromField u.idxMsb u.idxLsb i)
  | .two => recon tables u.base2 u.table2 (indexFromField u.idxMsb u.idxLsb i)

/-- R107: the 16 pixels. -/
def pixelsOf (tables : ModTable) (u : Unpacked) : Tile := Vector.ofFn (pixelOf tables u)

/-- R105: the codes of the individual format, expanded by `expand4`. -/
def unpackInd (b : IndBlock) : Unpacked where
  base1 := expandRgb .ind { r := b.r1.toNat, g := b.g1.toNat, b := b.b1.toNat }
  base2 := expandRgb .ind { r := b.r2.toNat, g := b.g2.toNat, b := b.b2.toNat }
  table1 := b.table1
  table2 := b.table2
  flip := b.flip
  idxMsb := b.idxMsb
  idxLsb := b.idxLsb

/-- R106: subblock 1's code triple. -/
def diffCode1 (b : DiffBlock) : Rgb := { r := b.r1.toNat, g := b.g1.toNat, b := b.b1.toNat }

/-- R106: subblock 2's raw code triple, the sum formed before expansion. -/
def diffCode2raw (b : DiffBlock) : Rgb :=
  { r := (diffCode1 b).r + b.dr, g := (diffCode1 b).g + b.dg, b := (diffCode1 b).b + b.db }

/-- R106: the code triple of subblock 2 under the parameter DIFF_OVERFLOW. -/
def diffCode2 (overflow : DiffOverflow) (b : DiffBlock) : Option Rgb :=
  if rgbInRange .dif (diffCode2raw b) then some (diffCode2raw b)
  else match overflow with
    | .clamp =>
      some { r := clamp (diffCode2raw b).r 0 31, g := clamp (diffCode2raw b).g 0 31, b := clamp (diffCode2raw b).b 0 31 }
    | .fault => none

/-- R106: the two base colours, expanded by `expand5`; `none` is `fault DIFF_OVERFLOW`. -/
def unpackDiff (overflow : DiffOverflow) (b : DiffBlock) : Option Unpacked :=
  match diffCode2 overflow b with
  | none => none
  | some c2 =>
    some {
      base1 := expandRgb .dif (diffCode1 b)
      base2 := expandRgb .dif c2
      table1 := b.table1
      table2 := b.table2
      flip := b.flip
      idxMsb := b.idxMsb
      idxLsb := b.idxLsb }

/-! ### The two block formats -/

/-- ETC1_INDIVIDUAL, as DECOMPRESS runs it: the 16 pixels of R105 and R107 into the R, G and B bytes
of OUT_PIX (R108). STATUS and the A bytes are DECOMPRESS's own part (assumption log 5). -/
def execEtc1Individual (b : IndBlock) (s : State) : Host.Outcome State Fault Refusal :=
  .next (s.writeOutRgb (pixelsOf s.modTable (unpackInd b)))

/-- ETC1_DIFF, as DECOMPRESS runs it: the 16 pixels of R106 and R107 into the R, G and B bytes of
OUT_PIX (R108), or `fault DIFF_OVERFLOW` where the parameter says so (R106). -/
def execEtc1Diff (b : DiffBlock) (s : State) : Host.Outcome State Fault Refusal :=
  match unpackDiff s.params.diffOverflow b with
  | none => .fault .diffOverflow
  | some u => .next (s.writeOutRgb (pixelsOf s.modTable u))

end Sys2Proof.Machine
end

