-- ==== Sys2Proof/Machine/Compress.lean ====
section
/-!
DEFINITION. COMPRESS (R70).
-/

namespace Sys2Proof.Machine

/-- R70: the block of 16 input pixels at a quality, with or without dither. -/
def compressBlock (tables : ModTable) (q : Quality) (ditherOn : Bool) (p : Tile) : Block :=
  pack (chooseConfiguration tables (quantizerInput ditherOn p) q)

/-- R70 with the initialisation check of R122: NOT_INITIALIZED before INIT, else both halves of OUT_BLOCK
and LAST_ERR 0. An IN_PIX byte nothing has written is read as any value (R127, spec/93 U3). -/
def execCompress (quality : BitVec 2) (ditherOn : Bool) (s : State) : Host.Outcome State Fault Refusal :=
  if s.status.initDone = false then .next (s.raiseError .notInitialized)
  else .next (s.writeOutBlock (compressBlock s.modTable (qualityOf quality) ditherOn (readPixels s))).commandDone

end Sys2Proof.Machine
end

