-- ==== Sys2Proof/Machine/Decompress.lean ====
section
/-!
DEFINITION. DECOMPRESS (R108): fetch the block, run it by its format, write alpha and STATUS.
-/

namespace Sys2Proof.Machine

/-- R37, R104: the block is run by the format `blk[33]` selects. -/
def runBlock (blk : Block) (s : State) : Host.Outcome State Fault Refusal :=
  if blk.getLsbD 33 then execEtc1Diff (diffFields blk) s else execEtc1Individual (indFields blk) s

/-- R108: what DECOMPRESS does after the block's pixels are written. -/
def finishDecompress (preserveAlpha : Bool) (s : State) : State :=
  (s.writeOutAlpha preserveAlpha).markValid.commandDone

/-- R108 with the initialisation check of R122: NOT_INITIALIZED before INIT, else the pixels,
VALID 1 and LAST_ERR 0. A half of IN_BLOCK nothing has written is read as any value (R127, spec/93 U3). -/
def execDecompress (preserveAlpha : Bool) (s : State) : Host.Outcome State Fault Refusal :=
  if s.status.initDone = false then .next (s.raiseError .notInitialized)
  else
    match runBlock (readBlock s) s with
    | .next t => .next (finishDecompress preserveAlpha t)
    | .fault r => .fault r
    | .refused r => .refused r

end Sys2Proof.Machine
end

