-- ==== Sys2Proof/Machine/Dispatch.lean ====
section
/-!
DEFINITION. What each instruction does: one arm per row of the opcode table.
-/

namespace Sys2Proof.Machine

def exec (i : Instr) (s : State) : Host.Outcome State Fault Refusal :=
  match i with
  | .init => Sys2Proof.Machine.execInit s
  | .compress quality dither => Sys2Proof.Machine.execCompress quality dither s
  | .decompress preserveAlpha => Sys2Proof.Machine.execDecompress preserveAlpha s
  | .etc1Individual b => Sys2Proof.Machine.execEtc1Individual b s
  | .etc1Diff b => Sys2Proof.Machine.execEtc1Diff b s

end Sys2Proof.Machine
end

