-- ==== Sys2Proof/Machine/Bus.lean ====
section
/-!
DEFINITION. The host's accesses to one instance (R23 to R28): reads, writes, commands and the
platform's reset, and the host-program statements of R39.
-/

namespace Sys2Proof.Machine

/-- R25: an access is legal when it is 4 bytes wide at a mapped multiple of 4. -/
def accessedReg (offset width : Nat) : Option RegName :=
  if width = 4 then regAt offset else none

/-- The word a host read of a register gives: CMD reads 0 (R12, R24), STATUS its word (R13), a data
register its value (R14 to R17), a byte of it that nothing has written since reset as a free value
(R21, R127, spec/93 U3). -/
def readWord (s : State) (n : RegName) : Word :=
  match n with
  | .cmd => 0#32
  | .status => s.status.word
  | .inPix i => s.shown (.inPix i) s.inPix[i]
  | .inBlockHi => s.shown .inBlockHi s.inBlockHi
  | .inBlockLo => s.shown .inBlockLo s.inBlockLo
  | .outBlockHi => s.shown .outBlockHi s.outBlockHi
  | .outBlockLo => s.shown .outBlockLo s.outBlockLo
  | .outPix i => s.shown (.outPix i) s.outPix[i]

/-- R121: a write of w to CMD runs the command w encodes, or raises ILLEGAL_COMMAND. -/
def runCommand (w : Word) (s : State) : Host.Outcome State Fault Refusal :=
  match decodeCommand w with
  | .ok i => exec i s
  | .error _ => .next (s.raiseError .illegalCommand)

/-- R25: an illegal read is BUS_FAULT, or where the parameter says so gives any value (spec/93 U2). -/
def illegalRead (s : State) : Host.Outcome State Fault Refusal :=
  match s.params.illegalAccess with
  | .fault => .fault .busFault
  | .goOn => .next { s with
      hostData := some (Config.unspecifiedResponse s.params.unitId s.draws)
      draws := s.draws + 1 }

/-- R25: an illegal write is BUS_FAULT, or where the parameter says so ignored (spec/93 U2). -/
def illegalWrite (s : State) : Host.Outcome State Fault Refusal :=
  match s.params.illegalAccess with
  | .fault => .fault .busFault
  | .goOn => .next { s with hostData := none }

/-- R25, R27: a host read changes no register. -/
def hostRead (offset width : Nat) (s : State) : Host.Outcome State Fault Refusal :=
  match accessedReg offset width with
  | none => illegalRead s
  | some n => .next { s with hostData := some (readWord s n) }

/-- R24, R25, R27: a host write stores its word, is ignored, or runs a command. -/
def hostWrite (offset width : Nat) (value : Word) (s : State) : Host.Outcome State Fault Refusal :=
  match accessedReg offset width with
  | none => illegalWrite s
  | some .cmd => runCommand value { s with hostData := none }
  | some n => .next ({ s with hostData := none }.storeReg n value)

/-- One event of the outside world, performed whole (R28, R140). -/
def performEvent (e : HostEvent) (s : State) : Host.Outcome State Fault Refusal :=
  match e with
  | .read offset width => hostRead offset width s
  | .write offset width value => hostWrite offset width value s
  | .reset => .next s.platformReset

/-- R39: the bus access each host-program statement stands for. -/
def expandStmt : Stmt → HostEvent
  | .wr r imm => .write (regOffset r) 4 imm
  | .rd r => .read (regOffset r) 4
  | .init => .write (regOffset .cmd) 4 initWord
  | .compress q d => .write (regOffset .cmd) 4 (compressWord q d)
  | .decompress a => .write (regOffset .cmd) 4 (decompressWord a)

/-- The accesses of a host program, in program order (R28, R39). -/
def hostProgram (p : List Stmt) : List HostEvent := p.map expandStmt

end Sys2Proof.Machine
end

