-- ==== Sys2Proof/Machine/Step.lean ====
section
/-!
DEFINITION. One step: the next pending access of the host, performed whole (R11, R28); with none
pending the unit is idle and holds its registers (R135).
-/

namespace Sys2Proof.Machine

def step (s : State) : Host.Outcome State Fault Refusal :=
  match s.queue with
  | [] => .next s
  | e :: rest => performEvent e { s with queue := rest }

/-- The state whose next step runs the instruction with these bits. A command word (up to 32 bits)
is the host's next write to CMD. A block (up to 64 bits) runs where the unit fetches blocks: it
stands in IN_BLOCK, the unit is initialised, and the host's next write is a DECOMPRESS that preserves
alpha (assumption log 6). -/
def State.withFetchWord (s : State) (nbits w : Nat) : State :=
  if nbits ≤ 32 then
    { s with queue := .write (regOffset .cmd) 4 (BitVec.ofNat 32 (w % 2 ^ nbits)) :: s.queue }
  else
    let blk : Block := BitVec.ofNat 64 (w % 2 ^ nbits)
    { s with
      status := s.status.setInitDone
      inBlockHi := DataReg.store (blk.extractLsb' 32 32)
      inBlockLo := DataReg.store (blk.extractLsb' 0 32)
      queue := .write (regOffset .cmd) 4 (decompressWord true) :: s.queue }

end Sys2Proof.Machine
end

