-- ==== Sys2Proof/Machine/Platform.lean ====
section
/-!
DEFINITION. A platform of several codecs (R6, R23, R132, R133): each has its own register space at a
base the platform chooses and its own state; a schedule is an interleaving of the hosts' accesses
(R28, R147). The machine the host's `core` names is one codec; this file is built on it.
-/

namespace Sys2Proof.Machine

/-- One codec on the platform: INSTANCE_BASE(i) and its state (R6, R132). -/
structure Slot where
  base : Nat
  unit : State
  deriving DecidableEq, Repr

/-- The platform: N_INSTANCES codecs (R6). -/
structure Platform where
  slots : List Slot
  deriving DecidableEq, Repr

/-- R23: the host address is in the slot's 256-byte register space. -/
def Slot.holds (sl : Slot) (addr : Nat) : Bool := decide (sl.base ≤ addr) && decide (addr < sl.base + 256)

/-- At least one codec (R6), each with a number of its own, and no two register spaces overlapping
(R23: "each with its own register space"). -/
def Platform.wf (p : Platform) : Bool :=
  !p.slots.isEmpty && (p.slots.map fun sl => sl.unit.params.unitId).Nodup &&
    decide (p.slots.Pairwise fun a b => a.base + 256 ≤ b.base ∨ b.base + 256 ≤ a.base)

/-- Codec i performs an event; every other codec is as it was (R132). -/
def Platform.deliver (i : Nat) (e : HostEvent) (p : Platform) : Host.Outcome Platform Fault Refusal :=
  match p.slots[i]? with
  | none => .refused .noInstance
  | some sl =>
    match performEvent e sl.unit with
    | .next u => .next { slots := p.slots.set i { sl with unit := u } }
    | .fault r => .fault r
    | .refused r => .refused r

/-- The codec whose register space holds a host address (R23). -/
def Platform.route (addr : Nat) (p : Platform) : Option Nat := p.slots.findIdx? fun sl => sl.holds addr

/-- A host's read at an address of the platform: the access at its offset in the codec's space (R23). -/
def Platform.read (addr width : Nat) (p : Platform) : Host.Outcome Platform Fault Refusal :=
  match p.route addr with
  | none => .refused .noInstance
  | some i => p.deliver i (.read (addr - (p.slots.map Slot.base).getD i 0) width)

/-- A host's write at an address of the platform. -/
def Platform.write (addr width : Nat) (value : Word) (p : Platform) : Host.Outcome Platform Fault Refusal :=
  match p.route addr with
  | none => .refused .noInstance
  | some i => p.deliver i (.write (addr - (p.slots.map Slot.base).getD i 0) width value)

/-- R140: the reset applied to every codec at once. -/
def Platform.resetAll (p : Platform) : Platform :=
  { slots := p.slots.map fun sl => { sl with unit := sl.unit.platformReset } }

/-- R28: a schedule of accesses, each a whole atomic step, in the order they are performed. -/
def Platform.run (p : Platform) : List (Nat × HostEvent) → Host.Outcome Platform Fault Refusal
  | [] => .next p
  | (i, e) :: rest =>
    match p.deliver i e with
    | .next q => q.run rest
    | .fault r => .fault r
    | .refused r => .refused r

/-- One codec performing events one after another. -/
def runEvents (s : State) : List HostEvent → Host.Outcome State Fault Refusal
  | [] => .next s
  | e :: rest =>
    match performEvent e s with
    | .next t => runEvents t rest
    | .fault r => .fault r
    | .refused r => .refused r

/-- Codec i's own events in a schedule, in order. -/
def eventsOf (i : Nat) (schedule : List (Nat × HostEvent)) : List HostEvent :=
  (schedule.filter fun ie => ie.1 == i).map Prod.snd

end Sys2Proof.Machine
end

