-- ==== Sys2Proof/Machine/ModelFaults.lean ====
section
/-!
DEFINITION. The table of R127 as a judgement about an access, and the strict reading of R21 and R127
built on it: a run that ends at the first access whose effect the spec leaves UNSPECIFIED. The machine
itself (`step`) goes on with a free value there (R127, spec/93 U3; assumption log 7).
-/

namespace Sys2Proof.Machine

/-- The four names of R127's table. -/
inductive ModelFault where
  | busFault
  | unwrittenRead
  | unwrittenInput
  | diffOverflow
  deriving DecidableEq, Repr

/-- R127's entry for an instruction, or `none`. A command that fails with an error has none, since the
error checks come first (R124). -/
def instrFault (s : State) : Instr → Option ModelFault
  | .init => none
  | .compress _ _ =>
    if s.status.initDone = false ∨ pixelNumbers.all fun i => (s.inPix[i]).isWritten then none
    else some .unwrittenInput
  | .decompress _ =>
    if s.status.initDone = false then none
    else if (s.inBlockHi.isWritten && s.inBlockLo.isWritten) = false then some .unwrittenInput
    else if (readBlock s).getLsbD 33 ∧ unpackDiff s.params.diffOverflow (diffFields (readBlock s)) = none then
      some .diffOverflow
    else none
  | .etc1Individual _ => none
  | .etc1Diff b => if unpackDiff s.params.diffOverflow b = none then some .diffOverflow else none

/-- R127's entry for an event, or `none`. -/
def modelFault (s : State) : HostEvent → Option ModelFault
  | .reset => none
  | .read offset width =>
    match accessedReg offset width with
    | none => some .busFault
    | some n =>
      match s.dataReg n with
      | none => none
      | some d => if d.isWritten then none else some .unwrittenRead
  | .write offset width value =>
    match accessedReg offset width with
    | none => some .busFault
    | some .cmd =>
      match decodeCommand value with
      | .ok i => instrFault s i
      | .error _ => none
    | some _ => none

/-- What a machine's own stop is called in R127's table. -/
def Fault.inTable : Fault → ModelFault
  | .busFault => .busFault
  | .diffOverflow => .diffOverflow

/-- R21, R127, read strictly: the run ends at an access the table names, with every register as before;
every other access is the machine's. -/
def strictEvent (e : HostEvent) (s : State) : Host.Outcome State ModelFault Refusal :=
  match modelFault s e with
  | some f => .fault f
  | none =>
    match performEvent e s with
    | .next t => .next t
    | .fault f => .fault f.inTable
    | .refused r => .refused r

/-- One step read strictly. -/
def strictStep (s : State) : Host.Outcome State ModelFault Refusal :=
  match s.queue with
  | [] => .next s
  | e :: rest => strictEvent e { s with queue := rest }

end Sys2Proof.Machine
end

