-- ==== Sys2Proof/Safety.lean ====
section
/-!
DEFINITION. What counts as a safe run, in the terms the claims use: which events the unit accepts
(it stops only by its parameters: an illegal access, a differential block that overflows), and the invariant of its registers.
-/

namespace Sys2Proof.Machine

/-- The instruction ends in a next state: it stops only where DIFF_OVERFLOW is `fault` and a block
overflows (R106). -/
def acceptsInstr (s : State) : Instr → Bool
  | .init => true
  | .compress _ _ => true
  | .decompress _ =>
    !s.status.initDone ||
      !(readBlock s).getLsbD 33 || (unpackDiff s.params.diffOverflow (diffFields (readBlock s))).isSome
  | .etc1Individual _ => true
  | .etc1Diff b => (unpackDiff s.params.diffOverflow b).isSome

/-- The event ends in a next state: the access is legal or the parameter lets it go on (R25), and a
command is accepted; an illegal command word is accepted too, it records an error (R123). -/
def acceptsEvent (s : State) : HostEvent → Bool
  | .reset => true
  | .read offset width =>
    match accessedReg offset width with
    | none => s.params.illegalAccess == .goOn
    | some _ => true
  | .write offset width value =>
    match accessedReg offset width with
    | none => s.params.illegalAccess == .goOn
    | some .cmd =>
      match decodeCommand value with
      | .ok i => acceptsInstr s i
      | .error _ => true
    | some _ => true

/-- The next `n` steps all answer a next state. -/
def SafeFor : Nat → State → Prop
  | 0, _ => True
  | n + 1, s => ∃ t, step s = .next t ∧ SafeFor n t

/-- All bytes written or none: what whole-word writes leave (R25). -/
def DataReg.wholeWord (d : DataReg) : Prop := d.written = 0x0#4 ∨ d.written = 0xF#4

/-- None, the three colour bytes, or all four: what host writes and DECOMPRESS leave (R17). -/
def DataReg.pixelWord (d : DataReg) : Prop := d.written = 0x0#4 ∨ d.written = 0x7#4 ∨ d.written = 0xF#4

/-- What holds of the registers in every state the unit reaches. -/
structure State.Inv (s : State) : Prop where
  /-- The modifier-table store holds its constants (R18, R42). -/
  tables : s.modTable = modConstants
  /-- A recorded error has set the sticky bit (R123), which only reset clears. -/
  sticky : s.status.lastErr ≠ .none → s.status.errSticky = true
  /-- VALID is set only by a DECOMPRESS, which needs INIT (R109, R122). -/
  validInit : s.status.valid = true → s.status.initDone = true
  /-- Once VALID is 1 the colour bytes of OUT_PIX are written (R108). -/
  validPixels : s.status.valid = true → ∀ i : Fin 16, (s.outPix[i]).written ≠ 0x0#4
  /-- OUT_BLOCK is written only by a COMPRESS, which needs INIT (R16, R122). -/
  blockInit : s.outBlockHi.isWritten = true → s.status.initDone = true
  /-- COMPRESS writes both halves together (R79). -/
  blockHalves : s.outBlockHi.written = s.outBlockLo.written
  inPixWhole : ∀ i : Fin 16, (s.inPix[i]).wholeWord
  inBlockHiWhole : s.inBlockHi.wholeWord
  inBlockLoWhole : s.inBlockLo.wholeWord
  outBlockWhole : s.outBlockHi.wholeWord
  outPixBytes : ∀ i : Fin 16, (s.outPix[i]).pixelWord

end Sys2Proof.Machine
end

