-- ==== Sys2Proof/Certificates/Slice0/Obligations.lean ====
section
/-!
DEFINITION. The statements for the provers. Each docstring names the rule of spec/ it formalises; a
statement that rests on a choice of the model says so and names the assumption log's entry.
-/

open Sys2Proof Sys2Proof.Machine

/-! ### Reset and the invariant -/

/-- R22: every row of the table of reset values. -/
def Obligations.ResetValuesOfEveryRegister : Prop :=
  State.reset.status = { initDone := false, errSticky := false, lastErr := .none, valid := false } ∧
  readWord State.reset .status = 0x00000000#32 ∧
  readWord State.reset .cmd = 0x00000000#32 ∧
  (∀ i : Fin 16, (State.reset.inPix[i]).written = 0x0#4) ∧
  State.reset.inBlockHi.written = 0x0#4 ∧ State.reset.inBlockLo.written = 0x0#4 ∧
  State.reset.outBlockHi.written = 0x0#4 ∧ State.reset.outBlockLo.written = 0x0#4 ∧
  (∀ i : Fin 16, (State.reset.outPix[i]).written = 0x0#4) ∧
  State.reset.modTable = modConstants

/-- R140, R141: the platform's reset puts every register at its reset value, in every state. That the
parameters, the pending accesses and the count of draws stay and that the reset count advances is the model's choice
(assumption logs 1, 2, 3). -/
def Obligations.ResetEventRestoresEveryRegister : Prop :=
  ∀ s : State, performEvent .reset s =
    .next { State.reset with params := s.params, epoch := s.epoch + 1, draws := s.draws, queue := s.queue }

/-- The invariant of Safety.lean holds after reset. -/
def Obligations.ResetMeetsRegisterInvariant : Prop := State.reset.Inv

/-- The invariant of Safety.lean is kept by every step from every state that meets it, not only from
reset (R13, R16, R17, R18, R42, R79, R123). -/
def Obligations.StepKeepsRegisterInvariant : Prop :=
  ∀ s t : State, s.Inv → step s = .next t → t.Inv

/-! ### Encodings -/

/-- R41: all 32 entries of the modifier-table store. -/
def Obligations.ModifierTableEntries : Prop :=
  ∀ t : BitVec 3,
    modEntry modConstants t 0#2 = [2, 5, 9, 13, 18, 24, 33, 47].getD t.toNat 0 ∧
    modEntry modConstants t 1#2 = [8, 17, 29, 42, 60, 80, 106, 183].getD t.toNat 0 ∧
    modEntry modConstants t 2#2 = [-2, -5, -9, -13, -18, -24, -33, -47].getD t.toNat 0 ∧
    modEntry modConstants t 3#2 = [-8, -17, -29, -42, -60, -80, -106, -183].getD t.toNat 0

/-- R35: the expansion of every 4-bit and every 5-bit code, and which one each mode uses. -/
def Obligations.ColourExpansionReplicatesBits : Prop :=
  (∀ c : BitVec 4, expand .ind c.toNat = (c ++ c).toNat ∧ expand .ind c.toNat = 17 * (c.toNat : Int)) ∧
  (∀ c : BitVec 5, expand .dif c.toNat = (c ++ c.extractLsb' 2 3).toNat ∧
    expand .dif c.toNat = 8 * (c.toNat : Int) + (c.toNat : Int) / 4)

/-- Decoding the encoding of every well-formed instruction gives it back. -/
def Obligations.DecodeEncodeAgree : Prop :=
  ∀ i : Instr, i.wf = true → decode (encode i) = .ok i

/-- Each sequence of bytes has at most one meaning: what decodes is well formed and encodes to the
same bytes. -/
def Obligations.EncodeDecodedBytesAgree : Prop :=
  ∀ (bytes : List Byte) (i : Instr), decode bytes = .ok i → i.wf = true ∧ encode i = bytes

/-- R30, R38, R121: a 32-bit word decodes exactly when it is one of the three legal forms, to the
command and fields the form says; every other word is rejected by name. -/
def Obligations.LegalCommandWordsExactly : Prop :=
  (∀ (w : Word) (i : Instr), decodeCommand w = .ok i ↔
    (i = .init ∧ w = 0x00000001#32) ∨
    (∃ (q : BitVec 2) (d : BitVec 1), i = .compress q (d == 1#1) ∧
      w = 0x00000002#32 ||| (q.setWidth 32 <<< 4) ||| (d.setWidth 32 <<< 6)) ∨
    (∃ a : BitVec 1, i = .decompress (a == 1#1) ∧ w = 0x00000003#32 ||| (a.setWidth 32 <<< 7))) ∧
  (∀ w : Word, (∀ i, decodeCommand w ≠ .ok i) → decodeCommand w = .error (.illegalCommand w))

/-- R31: where every field of a block stands, in both formats, for every one of the 2^64 blocks given
as its 8 bytes (R26: byte bk is `blk[63-8k : 56-8k]`). -/
def Obligations.BlockFieldPositions : Prop :=
  ∀ blk : Block,
    (blk.getLsbD 33 = false → decode (blockBytes blk) = .ok (.etc1Individual {
      r1 := blk.extractLsb' 60 4, r2 := blk.extractLsb' 56 4
      g1 := blk.extractLsb' 52 4, g2 := blk.extractLsb' 48 4
      b1 := blk.extractLsb' 44 4, b2 := blk.extractLsb' 40 4
      table1 := blk.extractLsb' 37 3, table2 := blk.extractLsb' 34 3
      flip := blk.getLsbD 32
      idxMsb := blk.extractLsb' 16 16, idxLsb := blk.extractLsb' 0 16 })) ∧
    (blk.getLsbD 33 = true → decode (blockBytes blk) = .ok (.etc1Diff {
      r1 := blk.extractLsb' 59 5, dr := (blk.extractLsb' 56 3).toInt
      g1 := blk.extractLsb' 51 5, dg := (blk.extractLsb' 48 3).toInt
      b1 := blk.extractLsb' 43 5, db := (blk.extractLsb' 40 3).toInt
      table1 := blk.extractLsb' 37 3, table2 := blk.extractLsb' 34 3
      flip := blk.getLsbD 32
      idxMsb := blk.extractLsb' 16 16, idxLsb := blk.extractLsb' 0 16 }))

/-- Words written out from the spec's encodings (spec/95 V-INIT, V-ERR, V-DEC) decode to what they
stand for. -/
def Obligations.WrittenOutWordsDecode : Prop :=
  decodeTableWord 32 0x00000001 = some .init ∧
  decodeTableWord 32 0x00000052 = some (.compress 1#2 true) ∧
  decodeTableWord 32 0x00000083 = some (.decompress true) ∧
  decodeTableWord 32 0x00000082 = none ∧
  decodeTableWord 64 0x7F00000100000000 = some (.etc1Individual {
    r1 := 7#4, r2 := 15#4, g1 := 0#4, g2 := 0#4, b1 := 0#4, b2 := 0#4
    table1 := 0#3, table2 := 0#3, flip := true, idxMsb := 0#16, idxLsb := 0#16 }) ∧
  decodeTableWord 64 0x477FE80F01103333 = some (.etc1Diff {
    r1 := 8#5, dr := -1, g1 := 15#5, dg := -1, b1 := 29#5, db := 0
    table1 := 0#3, table2 := 3#3, flip := true, idxMsb := 0x0110#16, idxLsb := 0x3333#16 })

/-! ### STATUS -/

/-- R13: where each field of STATUS stands in the word a read gives, its reserved bits 0, and LAST_ERR
at most 2. -/
def Obligations.StatusWordFields : Prop :=
  ∀ s : State, let w := readWord s .status
    w.getLsbD 0 = s.status.initDone ∧
    w.getLsbD 1 = s.status.errSticky ∧
    w.extractLsb' 2 2 = 0#2 ∧
    (s.status.lastErr = .none ↔ w.extractLsb' 4 4 = 0#4) ∧
    (s.status.lastErr = .illegalCommand ↔ w.extractLsb' 4 4 = 1#4) ∧
    (s.status.lastErr = .notInitialized ↔ w.extractLsb' 4 4 = 2#4) ∧
    w.extractLsb' 4 4 ≤ 2#4 ∧
    w.getLsbD 8 = s.status.valid ∧
    w.extractLsb' 9 23 = 0#23

/-- R13, R43: INIT_DONE is 1 after an event exactly if INIT ran in it or it was 1 and the event was no
reset. -/
def Obligations.InitDoneSetOnlyByInit : Prop :=
  ∀ (e : HostEvent) (s t : State), performEvent e s = .next t →
    (t.status.initDone = true ↔ e = .write 0 4 0x00000001#32 ∨ (e ≠ .reset ∧ s.status.initDone = true))

/-- R13, R123, R125: ERR_STICKY is 1 after an event exactly if a command failed in it or it was 1 and
the event was no reset. -/
def Obligations.ErrStickySetOnlyByFailure : Prop :=
  ∀ (e : HostEvent) (s t : State), performEvent e s = .next t →
    (t.status.errSticky = true ↔
      (∃ w, e = .write 0 4 w ∧
        ((∀ i, decodeCommand w ≠ .ok i) ∨ (w ≠ 0x00000001#32 ∧ s.status.initDone = false))) ∨
      (e ≠ .reset ∧ s.status.errSticky = true))

/-- R13, R120, R125: LAST_ERR describes the most recent command: 1 for an illegal word, 2 for a legal
COMPRESS or DECOMPRESS before INIT, else 0; an access that is no command leaves it. -/
def Obligations.LastErrDescribesLastCommand : Prop :=
  ∀ (e : HostEvent) (s t : State), performEvent e s = .next t →
    (∀ w, e = .write 0 4 w →
      ((∀ i, decodeCommand w ≠ .ok i) → t.status.lastErr = .illegalCommand) ∧
      ((∃ i, decodeCommand w = .ok i ∧ i ≠ .init) → s.status.initDone = false →
        t.status.lastErr = .notInitialized) ∧
      (decodeCommand w = .ok .init → t.status.lastErr = .none) ∧
      ((∃ i, decodeCommand w = .ok i) → s.status.initDone = true → t.status.lastErr = .none)) ∧
    ((∀ w, e ≠ .write 0 4 w) → e ≠ .reset → t.status.lastErr = s.status.lastErr)

/-- R13, R108, R109: VALID is 1 after an event exactly if a DECOMPRESS succeeded in it or it was 1 and
the event was no reset. -/
def Obligations.ValidSetOnlyByDecompress : Prop :=
  ∀ (e : HostEvent) (s t : State), performEvent e s = .next t →
    (t.status.valid = true ↔
      ((e = .write 0 4 0x00000003#32 ∨ e = .write 0 4 0x00000083#32) ∧ s.status.initDone = true) ∨
      (e ≠ .reset ∧ s.status.valid = true))

/-! ### The register space and the bus -/

/-- R23: the map, each mapped offset naming exactly one register (R10: no register aliases another). -/
def Obligations.RegisterMapIsOneToOne : Prop :=
  (∀ (off : Nat) (n : RegName), regAt off = some n ↔ off = regOffset n) ∧
  regOffset .cmd = 0x000 ∧ regOffset .status = 0x004 ∧
  (∀ i : Fin 16, regOffset (.inPix i) = 0x010 + 4 * i.val) ∧
  regOffset .inBlockHi = 0x050 ∧ regOffset .inBlockLo = 0x054 ∧
  regOffset .outBlockHi = 0x058 ∧ regOffset .outBlockLo = 0x05C ∧
  (∀ i : Fin 16, regOffset (.outPix i) = 0x060 + 4 * i.val)

/-- R25 (with the spec's own treatment of an illegal access): in the register space of R23, offsets below
0x100, exactly the accesses that are not 32 bits wide, not at a multiple of 4 or at an unmapped offset
are BUS_FAULT. -/
def Obligations.IllegalAccessesAreBusFaults : Prop :=
  ∀ (s : State) (off width : Nat) (v : Word), s.params.illegalAccess = .fault → off < 0x100 →
    (performEvent (.read off width) s = .fault .busFault ↔
      width ≠ 4 ∨ off % 4 ≠ 0 ∨ off = 0x008 ∨ off = 0x00C ∨ 0x0A0 ≤ off) ∧
    (performEvent (.write off width v) s = .fault .busFault ↔
      width ≠ 4 ∨ off % 4 ≠ 0 ∨ off = 0x008 ∨ off = 0x00C ∨ 0x0A0 ≤ off)

/-- R127, spec/93 U2 (the alternative treatment): an illegal read goes on with a free value (assumption
log 3) and an illegal write is ignored; neither changes a register (that nothing is stored is log 8).
That offsets of 0x100 and more, past the space of R23, are illegal too, with either treatment, is the
model's choice (assumption log 18). -/
def Obligations.IllegalAccessesMayGoOn : Prop :=
  (∀ (s : State) (off width : Nat) (v : Word), s.params.illegalAccess = .goOn →
    width ≠ 4 ∨ off % 4 ≠ 0 ∨ off = 0x008 ∨ off = 0x00C ∨ 0x0A0 ≤ off →
    (∃ w : Word, performEvent (.read off width) s =
      .next { s with hostData := some w, draws := s.draws + 1 }) ∧
    performEvent (.write off width v) s = .next { s with hostData := none }) ∧
  ∀ (s : State) (off width : Nat) (v : Word), s.params.illegalAccess = .fault → 0x100 ≤ off →
    performEvent (.read off width) s = .fault .busFault ∧
    performEvent (.write off width v) s = .fault .busFault

/-- R24: writes to the read-only registers are ignored; a read of CMD gives 0 and has no effect. Only
the bus's answer, the model's own `hostData` (assumption log 1), changes. -/
def Obligations.ReadOnlyAndWriteOnlyRegisters : Prop :=
  ∀ (s : State) (v : Word),
    performEvent (.write 0x004 4 v) s = .next { s with hostData := none } ∧
    performEvent (.write 0x058 4 v) s = .next { s with hostData := none } ∧
    performEvent (.write 0x05C 4 v) s = .next { s with hostData := none } ∧
    performEvent (.read 0x000 4) s = .next { s with hostData := some 0x00000000#32 }

/-- R14, R15, R17, R27: a host write to a read-write register stores the whole word there and changes
no other register. -/
def Obligations.HostWriteStoresOneRegister : Prop :=
  ∀ (s : State) (v : Word),
    (∀ i : Fin 16, performEvent (.write (0x010 + 4 * i.val) 4 v) s =
      .next { s with hostData := none, inPix := s.inPix.set i { value := v, written := 0xF#4 } }) ∧
    performEvent (.write 0x050 4 v) s =
      .next { s with hostData := none, inBlockHi := { value := v, written := 0xF#4 } } ∧
    performEvent (.write 0x054 4 v) s =
      .next { s with hostData := none, inBlockLo := { value := v, written := 0xF#4 } } ∧
    (∀ i : Fin 16, performEvent (.write (0x060 + 4 * i.val) 4 v) s =
      .next { s with hostData := none, outPix := s.outPix.set i { value := v, written := 0xF#4 } })

/-- R14, R15, R17, R10: a read after a host write to a read-write register gives the word written, and
every other register still reads as before, one that nothing has written too (assumption logs 3, 7). -/
def Obligations.ReadAfterWriteGivesWord : Prop :=
  ∀ (s t : State) (n m : RegName) (v : Word),
    ((∃ i, n = .inPix i) ∨ n = .inBlockHi ∨ n = .inBlockLo ∨ ∃ i, n = .outPix i) →
    performEvent (.write (regOffset n) 4 v) s = .next t →
    readWord t n = v ∧ (m ≠ n → readWord t m = readWord s m)

/-- R27: a read of a register changes no register, and the same read again gives the same value. That a
register nothing has written reads at all is the model's choice (assumption log 7; U3: one value per
register per reset). -/
def Obligations.ReadsHaveNoSideEffects : Prop :=
  ∀ (s t : State) (n : RegName), performEvent (.read (regOffset n) 4) s = .next t →
    (∃ w, t = { s with hostData := some w }) ∧ performEvent (.read (regOffset n) 4) t = .next t

/-- R21, R127, read strictly: a host read of a data register is UNWRITTEN_READ exactly if one of its bytes
is unwritten, else it gives its value. The machine's own read of a written register is the same one. -/
def Obligations.UnwrittenReadFaults : Prop :=
  ∀ (s : State) (n : RegName) (d : DataReg), s.dataReg n = some d →
    (d.written ≠ 0xF#4 → strictEvent (.read (regOffset n) 4) s = .fault .unwrittenRead) ∧
    (d.written = 0xF#4 →
      strictEvent (.read (regOffset n) 4) s = .next { s with hostData := some d.value } ∧
      performEvent (.read (regOffset n) 4) s = .next { s with hostData := some d.value })

/-- R127, spec/93 U3 (the machine's treatment, log 7): every read of a data register goes on, whether or
not anything has been written, and the bytes that are written read as written; the others are free
(assumption log 3). -/
def Obligations.AnyValueReadsKeepWrittenBytes : Prop :=
  ∀ (s : State) (n : RegName) (d : DataReg), s.dataReg n = some d →
    ∃ w : Word, performEvent (.read (regOffset n) 4) s = .next { s with hostData := some w } ∧
      ∀ lane : Nat, lane < 4 → d.written.getLsbD lane = true →
        w.extractLsb' (8 * lane) 8 = d.value.extractLsb' (8 * lane) 8

/-- R126, R127: the machine goes on exactly with the events `acceptsEvent` names (unwritten registers are
no reason to stop: the model's choice, assumption log 7), and with every event to which no row of R127's
table applies, where the strict reading is the machine itself. -/
def Obligations.AcceptedEventsAreExactlyTheNextOnes : Prop :=
  ∀ (e : HostEvent) (s : State),
    ((∃ t, performEvent e s = .next t) ↔ acceptsEvent s e = true) ∧
    (modelFault s e = none → ∃ t, performEvent e s = .next t ∧ strictEvent e s = .next t)

/-- R126 over whole runs: a unit with DIFF_OVERFLOW = clamp is never stopped by a host that makes only
legal accesses, whatever words it writes; one that goes on with illegal accesses (U2) is never stopped
at all. That this needs no register to have been written before is the model's choice (assumption log
7; R127's last sentence, U3), not R126, which asks that inputs are written. -/
def Obligations.LegalAccessesNeverStopTheUnit : Prop :=
  ∀ (n : Nat) (s : State),
    s.params.diffOverflow = .clamp →
    (s.params.illegalAccess = .goOn ∨ ∀ e ∈ s.queue, match e with
      | .reset => True
      | .read off width => accessedReg off width ≠ none
      | .write off width _ => accessedReg off width ≠ none) →
    SafeFor n s

/-! ### Command errors and INIT -/

/-- R123, R124: an illegal word (R121's `legal`, spelled out) records ILLEGAL_COMMAND in every state,
and a legal COMPRESS or DECOMPRESS word before INIT records NOT_INITIALIZED; both set ERR_STICKY and
change no other register. -/
def Obligations.ErrorsChangeOnlyStatus : Prop :=
  ∀ (s : State) (w : Word),
    (¬((w.extractLsb' 0 4 = 1#4 ∧ w.extractLsb' 4 28 = 0#28) ∨
        (w.extractLsb' 0 4 = 2#4 ∧ w.extractLsb' 7 25 = 0#25) ∨
        (w.extractLsb' 0 4 = 3#4 ∧ w.extractLsb' 8 24 = 0#24 ∧ w.extractLsb' 4 3 = 0#3)) →
      performEvent (.write 0x000 4 w) s = .next { s with
        hostData := none
        status := { s.status with lastErr := .illegalCommand, errSticky := true } }) ∧
    (((w.extractLsb' 0 4 = 2#4 ∧ w.extractLsb' 7 25 = 0#25) ∨
        (w.extractLsb' 0 4 = 3#4 ∧ w.extractLsb' 8 24 = 0#24 ∧ w.extractLsb' 4 3 = 0#3)) →
      s.status.initDone = false →
      performEvent (.write 0x000 4 w) s = .next { s with
        hostData := none
        status := { s.status with lastErr := .notInitialized, errSticky := true } })

/-- R43: INIT, the word 0x00000001, sets INIT_DONE, clears LAST_ERR and changes nothing else, in every
state; any other word with OP = 1 is ILLEGAL_COMMAND and INIT does not run. -/
def Obligations.InitSetsInitDoneOnly : Prop :=
  (∀ s : State, exec .init s = .next { s with status := { s.status with initDone := true, lastErr := .none } }) ∧
  (∀ s : State, performEvent (.write 0x000 4 0x00000001#32) s = exec .init { s with hostData := none }) ∧
  ∀ (s : State) (w : Word), w.extractLsb' 0 4 = 1#4 → w ≠ 0x00000001#32 →
    performEvent (.write 0x000 4 w) s = .next { s with
      hostData := none
      status := { s.status with lastErr := .illegalCommand, errSticky := true } }

/-! ### Quantizer -/

/-- R51: the code of the nearest level, the smaller code on a tie, for every integer total; and the
closed form for individual mode. -/
def Obligations.QuantizePicksNearestLevel : Prop :=
  (∀ (total : Int) (m : Mode),
    0 ≤ quantize total m ∧ quantize total m ≤ maxCode m ∧
    ∀ c : Int, 0 ≤ c → c ≤ maxCode m →
      |8 * expand m (quantize total m) - total| ≤ |8 * expand m c - total| ∧
      (c < quantize total m → |8 * expand m (quantize total m) - total| < |8 * expand m c - total|)) ∧
  maxCode .ind = 15 ∧ maxCode .dif = 31 ∧
  ∀ total : Int, quantize total .ind = clamp ((total + 67) / 136) 0 15

/-- R55, R56: the candidate list, for every code triple of a mode: the triple first; at high then
exactly its neighbours inside the code range, in strictly ascending lexicographic order. -/
def Obligations.CandidateListsAreTheNeighbourhood : Prop :=
  ∀ (m : Mode) (c : Rgb), rgbInRange m c = true →
    candidates .low m c = [c] ∧ candidates .medium m c = [c] ∧
    ∃ rest, candidates .high m c = c :: rest ∧ rest.length ≤ 26 ∧
      (∀ x : Rgb, x ∈ rest ↔
        x ≠ c ∧ rgbInRange m x = true ∧ |x.r - c.r| ≤ 1 ∧ |x.g - c.g| ≤ 1 ∧ |x.b - c.b| ≤ 1) ∧
      rest.Pairwise fun x y => x.r < y.r ∨ (x.r = y.r ∧ (x.g < y.g ∨ (x.g = y.g ∧ x.b < y.b)))

/-- R33, R50: each channel's sum is the sum of that channel over the 8 pixels of the subblock; R78: the
refinement's sum is that of the channel minus the chosen modifier, the k of each pixel read from the
subblock's list in row-major order. R50, R58: the channel sums are in [0, 2040], and the refinement's
sums, whatever table and indices were chosen, in [-1464, 3504]. -/
def Obligations.ChannelSumRanges : Prop :=
  ∀ (d : Tile) (flip : Bool) (sub : Sub),
    let inSub := fun i : Fin 16 => (if flip then i.val / 4 < 2 else i.val % 4 < 2) ↔ sub = .one
    let sums := channelSums (subPixels d flip sub)
    (sums = {
      r := ∑ i : Fin 16, if inSub i then d[i].r else 0
      g := ∑ i : Fin 16, if inSub i then d[i].g else 0
      b := ∑ i : Fin 16, if inSub i then d[i].b else 0 }) ∧
    (∀ (tables : ModTable) (c : SubChoice) (k : Fin 16 → BitVec 2),
      c.ks = (pixelNumbers.filter fun i => inSub i).map k →
      residualSums tables (subPixels d flip sub) c = {
        r := ∑ i : Fin 16, if inSub i then d[i].r - modEntry tables c.table (k i) else 0
        g := ∑ i : Fin 16, if inSub i then d[i].g - modEntry tables c.table (k i) else 0
        b := ∑ i : Fin 16, if inSub i then d[i].b - modEntry tables c.table (k i) else 0 }) ∧
    ∀ c : SubChoice,
      (∀ i : Fin 16, 0 ≤ d[i].r ∧ d[i].r ≤ 255 ∧ 0 ≤ d[i].g ∧ d[i].g ≤ 255 ∧ 0 ≤ d[i].b ∧ d[i].b ≤ 255) →
      let refined := residualSums modConstants (subPixels d flip sub) c
      (∀ v ∈ [sums.r, sums.g, sums.b], 0 ≤ v ∧ v ≤ 2040) ∧
      ∀ v ∈ [refined.r, refined.g, refined.b], -1464 ≤ v ∧ v ≤ 3504

/-! ### Reconstruction and the table selector -/

/-- R44: each channel is the base plus the one modifier, clamped to [0, 255]; with the store's constants
and a base channel in [0, 255] the sum before the clamp is in [-183, 438], and every result is in
[0, 255]. -/
def Obligations.ReconstructionClampsEachChannel : Prop :=
  (∀ (tables : ModTable) (base : Rgb) (t : BitVec 3) (k : BitVec 2),
    recon tables base t k = {
      r := max 0 (min 255 (base.r + modEntry tables t k))
      g := max 0 (min 255 (base.g + modEntry tables t k))
      b := max 0 (min 255 (base.b + modEntry tables t k)) } ∧
    ∀ v ∈ [(recon tables base t k).r, (recon tables base t k).g, (recon tables base t k).b],
      0 ≤ v ∧ v ≤ 255) ∧
  ∀ (v : Int) (t : BitVec 3) (k : BitVec 2), 0 ≤ v → v ≤ 255 →
    -183 ≤ v + modEntry modConstants t k ∧ v + modEntry modConstants t k ≤ 438

/-- R61, R63: the pixel index and the table of least error, the smallest on a tie. -/
def Obligations.SelectorPicksFirstMinimum : Prop :=
  ∀ (tables : ModTable) (base : Rgb),
    (∀ (t : BitVec 3) (p : Rgb) (k : BitVec 2),
      pixelError tables base t (bestIndex tables base t p) p ≤ pixelError tables base t k p ∧
      (k < bestIndex tables base t p →
        pixelError tables base t (bestIndex tables base t p) p < pixelError tables base t k p)) ∧
    (∀ (pixels : List Rgb) (t : BitVec 3),
      tableError tables base (bestTable tables base pixels) pixels ≤ tableError tables base t pixels ∧
      (t < bestTable tables base pixels →
        tableError tables base (bestTable tables base pixels) pixels < tableError tables base t pixels))

/-- R62, R63, R64: the error `select` reports is that of the indices it reports, and no table with any
assignment of indices does better. -/
def Obligations.SelectedErrorIsLeast : Prop :=
  ∀ (tables : ModTable) (pixels : List Rgb) (m : Mode) (code : Rgb),
    let s := select tables pixels m code
    let errorWith := fun (t : BitVec 3) (ks : List (BitVec 2)) =>
      (List.zipWith (fun p k => pixelError tables (expandRgb m code) t k p) pixels ks).sum
    s.code = code ∧ s.ks.length = pixels.length ∧ s.err = errorWith s.table s.ks ∧
    ∀ (t : BitVec 3) (ks : List (BitVec 2)), ks.length = pixels.length → s.err ≤ errorWith t ks

/-- R60, R62, R65: the range of a pixel error and of a subblock's error. -/
def Obligations.SelectorErrorRanges : Prop :=
  ∀ (tables : ModTable) (base : Rgb) (t : BitVec 3),
    let inRange := fun p : Rgb => 0 ≤ p.r ∧ p.r ≤ 255 ∧ 0 ≤ p.g ∧ p.g ≤ 255 ∧ 0 ≤ p.b ∧ p.b ≤ 255
    (∀ (k : BitVec 2) (p : Rgb), inRange p →
      0 ≤ pixelError tables base t k p ∧ pixelError tables base t k p ≤ 195075) ∧
    (∀ pixels : List Rgb, pixels.length = 8 → (∀ p ∈ pixels, inRange p) →
      0 ≤ tableError tables base t pixels ∧ tableError tables base t pixels ≤ 1560600)

/-! ### Search, refinement and COMPRESS -/

/-- R74, R75, R76: an individual combination takes each subblock's FIRST least-error candidate in list
order; a differential one the FIRST least-total pair among those that satisfy the delta constraint,
the pairs scanned with subblock 1 in the outer loop, and it is not representable exactly if no pair
satisfies it. -/
def Obligations.CombinationsAreBestOverCandidates : Prop :=
  ∀ (tables : ModTable) (d : Tile) (q : Quality) (flip : Bool),
    let p1 := subPixels d flip .one
    let p2 := subPixels d flip .two
    let cand := fun (m : Mode) (p : List Rgb) => candidates q m (quantizeRgb (channelSums p) m)
    let pairs := ((cand .dif p1).flatMap fun a => (cand .dif p2).map fun b => (a, b)).filter
      fun ab => deltaOk ab.1 ab.2
    let totalOf := fun ab : Rgb × Rgb => (select tables p1 .dif ab.1).err + (select tables p2 .dif ab.2).err
    (let c := evaluateInd tables d q flip
     c.mode = .ind ∧ c.flip = flip ∧
     (∃ before a after, cand .ind p1 = before ++ a :: after ∧ c.sub1 = select tables p1 .ind a ∧
       (∀ x ∈ before, c.sub1.err < (select tables p1 .ind x).err) ∧
       ∀ x ∈ after, c.sub1.err ≤ (select tables p1 .ind x).err) ∧
     ∃ before b after, cand .ind p2 = before ++ b :: after ∧ c.sub2 = select tables p2 .ind b ∧
       (∀ x ∈ before, c.sub2.err < (select tables p2 .ind x).err) ∧
       ∀ x ∈ after, c.sub2.err ≤ (select tables p2 .ind x).err) ∧
    (evaluateDif tables d q flip = none ↔
      ∀ a ∈ cand .dif p1, ∀ b ∈ cand .dif p2, deltaOk a b = false) ∧
    (∀ c, evaluateDif tables d q flip = some c →
      c.mode = .dif ∧ c.flip = flip ∧
      ∃ before ab after, pairs = before ++ ab :: after ∧ deltaOk ab.1 ab.2 = true ∧
        c.sub1 = select tables p1 .dif ab.1 ∧ c.sub2 = select tables p2 .dif ab.2 ∧
        (∀ x ∈ before, c.total < totalOf x) ∧ ∀ x ∈ after, c.total ≤ totalOf x)

/-- R77: the search keeps the first representable combination of least total, in the scan order of R73:
every earlier representable combination is strictly worse and no later one is better. -/
def Obligations.SearchKeepsFirstLeastCombination : Prop :=
  combos .low = [(.ind, false)] ∧
  combos .medium = [(.dif, false), (.dif, true), (.ind, false), (.ind, true)] ∧
  combos .high = [(.dif, false), (.dif, true), (.ind, false), (.ind, true)] ∧
  ∀ (tables : ModTable) (d : Tile) (q : Quality),
    ∃ (before : List (Mode × Bool)) (chosen : Mode × Bool) (after : List (Mode × Bool)),
      combos q = before ++ chosen :: after ∧
      evaluate tables d q chosen = some (search tables d q) ∧
      ((search tables d q).mode, (search tables d q).flip) = chosen ∧
      (∀ x ∈ before, ∀ c, evaluate tables d q x = some c → (search tables d q).total < c.total) ∧
      (∀ x ∈ after, ∀ c, evaluate tables d q x = some c → (search tables d q).total ≤ c.total)

/-- R78: the refinement keeps mode, flip and the delta constraint and never makes the error worse; it
answers the re-derived configuration exactly where that is representable and strictly better, else
what it was given. The re-derived configuration has, in each subblock, the selector's choice for the
codes quantized, in the same mode, from the sums T over its 8 pixels of the channel minus the modifier
the given configuration chose for the pixel. -/
def Obligations.RefinementNeverMakesWorse : Prop :=
  ∀ (tables : ModTable) (d : Tile) (best : Configuration),
    let r := refine tables d best
    r.mode = best.mode ∧ r.flip = best.flip ∧ r.total ≤ best.total ∧
    (best.mode = .dif → deltaOk best.sub1.code best.sub2.code = true →
      deltaOk r.sub1.code r.sub2.code = true) ∧
    let again := rederived tables d best
    let taken := (best.mode = .ind ∨ deltaOk again.sub1.code again.sub2.code = true) ∧ again.total < best.total
    (taken → r = again) ∧ (¬taken → r = best) ∧
    again.mode = best.mode ∧ again.flip = best.flip ∧
    let inOne := fun i : Fin 16 => if best.flip then i.val / 4 < 2 else i.val % 4 < 2
    let residual := fun (c : SubChoice) (k : Fin 16 → BitVec 2) (ch : Rgb → Int) (i : Fin 16) =>
      ch d[i] - modEntry tables c.table (k i)
    (∀ k : Fin 16 → BitVec 2, best.sub1.ks = (pixelNumbers.filter fun i => inOne i).map k →
      again.sub1 = select tables ((pixelNumbers.filter fun i => inOne i).map fun i => d[i]) best.mode {
        r := quantize (∑ i : Fin 16, if inOne i then residual best.sub1 k Rgb.r i else 0) best.mode
        g := quantize (∑ i : Fin 16, if inOne i then residual best.sub1 k Rgb.g i else 0) best.mode
        b := quantize (∑ i : Fin 16, if inOne i then residual best.sub1 k Rgb.b i else 0) best.mode }) ∧
    (∀ k : Fin 16 → BitVec 2, best.sub2.ks = (pixelNumbers.filter fun i => ¬inOne i).map k →
      again.sub2 = select tables ((pixelNumbers.filter fun i => ¬inOne i).map fun i => d[i]) best.mode {
        r := quantize (∑ i : Fin 16, if inOne i then 0 else residual best.sub2 k Rgb.r i) best.mode
        g := quantize (∑ i : Fin 16, if inOne i then 0 else residual best.sub2 k Rgb.g i) best.mode
        b := quantize (∑ i : Fin 16, if inOne i then 0 else residual best.sub2 k Rgb.b i) best.mode })

/-- R81: the total error never grows with the quality, for every input. -/
def Obligations.QualityOrdersTotalError : Prop :=
  ∀ (tables : ModTable) (ditherOn : Bool) (p : Tile),
    let total := fun q => (chooseConfiguration tables (quantizerInput ditherOn p) q).total
    total .medium ≤ total .low ∧ total .high ≤ total .medium

/-- R82: a representable differential pair, also one with a channel delta of exactly 3 or -4, that is no
worse than every individual combination makes the search select differential mode. -/
def Obligations.DiffModeWinsAtTheBoundary : Prop :=
  (∀ x y : Rgb, (∀ v ∈ [y.r - x.r, y.g - x.g, y.b - x.b], -4 ≤ v ∧ v ≤ 3) → deltaOk x y = true) ∧
  ∀ (tables : ModTable) (d : Tile) (q : Quality) (flip : Bool) (a b : Rgb),
    q ≠ .low →
    a ∈ candidates q .dif (quantizeRgb (channelSums (subPixels d flip .one)) .dif) →
    b ∈ candidates q .dif (quantizeRgb (channelSums (subPixels d flip .two)) .dif) →
    deltaOk a b = true →
    (∀ f : Bool, (select tables (subPixels d flip .one) .dif a).err +
      (select tables (subPixels d flip .two) .dif b).err ≤ (evaluateInd tables d q f).total) →
    (chooseConfiguration tables d q).mode = .dif

/-- R71: the QUALITY codes; code 3 runs as high, on every state. -/
def Obligations.QualityCodeThreeRunsAsHigh : Prop :=
  qualityOf 0#2 = .low ∧ qualityOf 1#2 = .medium ∧ qualityOf 2#2 = .high ∧ qualityOf 3#2 = .high ∧
  ∀ (ditherOn : Bool) (s : State), exec (.compress 3#2 ditherOn) s = exec (.compress 2#2 ditherOn) s

/-- R70, R79: COMPRESS after INIT completes for every quality and dither flag, whatever has been written:
it encodes one tile whose written channels are those of IN_PIX (an unwritten one is a free byte: the model's choice, R127, U3, assumption logs 3, 7),
writes both halves of OUT_BLOCK and LAST_ERR, and nothing else. -/
def Obligations.CompressWritesOutBlockOnly : Prop :=
  ∀ s : State, s.status.initDone = true →
    ∃ p : Fin 16 → Byte × Byte × Byte,
      (∀ i : Fin 16,
        ((s.inPix[i]).written.getLsbD 0 = true → (p i).1 = (s.inPix[i]).value.extractLsb' 0 8) ∧
        ((s.inPix[i]).written.getLsbD 1 = true → (p i).2.1 = (s.inPix[i]).value.extractLsb' 8 8) ∧
        ((s.inPix[i]).written.getLsbD 2 = true → (p i).2.2 = (s.inPix[i]).value.extractLsb' 16 8)) ∧
      ∀ (q : BitVec 2) (ditherOn : Bool),
        let tile : Tile := Vector.ofFn fun i : Fin 16 => {
          r := (p i).1.toNat
          g := (p i).2.1.toNat
          b := (p i).2.2.toNat }
        let d := if ditherOn then dither tile else tile
        let blk := pack (chooseConfiguration s.modTable d (qualityOf q))
        exec (.compress q ditherOn) s = .next { s with
          outBlockHi := { value := blk.extractLsb' 32 32, written := 0xF#4 }
          outBlockLo := { value := blk.extractLsb' 0 32, written := 0xF#4 }
          status := { s.status with lastErr := .none } }

/-- R80, R86: what COMPRESS writes depends on the R, G and B bytes of IN_PIX alone (for one quality,
dither flag and table store): two states that differ in anything else, the A bytes among it, get the
same block. -/
def Obligations.CompressIgnoresAllButColour : Prop :=
  ∀ (s t s' t' : State) (q : BitVec 2) (ditherOn : Bool),
    s.status.initDone = true → t.status.initDone = true →
    (∀ i : Fin 16, (s.inPix[i]).written = 0xF#4) → (∀ i : Fin 16, (t.inPix[i]).written = 0xF#4) →
    s.modTable = t.modTable →
    (∀ i : Fin 16, (s.inPix[i]).value.extractLsb' 0 24 = (t.inPix[i]).value.extractLsb' 0 24) →
    exec (.compress q ditherOn) s = .next s' → exec (.compress q ditherOn) t = .next t' →
    s'.outBlockHi = t'.outBlockHi ∧ s'.outBlockLo = t'.outBlockLo

/-- R21, R70, R108, R124, R127, read strictly: a command word that encodes COMPRESS is UNWRITTEN_INPUT
after INIT exactly if a byte of an IN_PIX word is unwritten, one that encodes DECOMPRESS exactly if a
half of IN_BLOCK is; before INIT neither is, the error comes first. -/
def Obligations.UnwrittenInputsStopCommands : Prop :=
  ∀ (s : State) (w : Word),
    (∀ (q : BitVec 2) (ditherOn : Bool), decodeCommand w = .ok (.compress q ditherOn) →
      (strictEvent (.write 0x000 4 w) s = .fault .unwrittenInput ↔
        s.status.initDone = true ∧ ∃ i : Fin 16, (s.inPix[i]).written ≠ 0xF#4)) ∧
    (∀ a : Bool, decodeCommand w = .ok (.decompress a) →
      (strictEvent (.write 0x000 4 w) s = .fault .unwrittenInput ↔
        s.status.initDone = true ∧ (s.inBlockHi.written ≠ 0xF#4 ∨ s.inBlockLo.written ≠ 0xF#4)))

/-! ### Dither -/

/-- R90, R95: flat blocks, blocks on the 4-bit grid and blocks on the 5-bit grid pass the dither
unchanged, so COMPRESS writes the same block with and without it. -/
def Obligations.DitherLeavesGridBlocks : Prop :=
  ∀ p : Tile,
    ((∀ i j : Fin 16, p[i] = p[j]) ∨
      (∀ i : Fin 16, p[i].r % 17 = 0 ∧ p[i].g % 17 = 0 ∧ p[i].b % 17 = 0) ∨
      (∀ i : Fin 16, ∃ x y z : BitVec 5,
        p[i] = { r := expand5 x.toNat, g := expand5 y.toNat, b := expand5 z.toNat })) →
    dither p = p ∧
    ∀ (tables : ModTable) (q : Quality), compressBlock tables q true p = compressBlock tables q false p

/-- R93: the shares of one pixel's error, each to the neighbour the weights name, inside the tile only.
Accumulators are numbered row-major, (x, y) at 4y + x. -/
def Obligations.ErrorSharesGoToNeighbours : Prop :=
  ∀ (acc : List Int) (e : Int) (x y x' y' : Fin 4), acc.length = 16 →
    (spreadError (4 * y.val + x.val) e acc).length = 16 ∧
    (spreadError (4 * y.val + x.val) e acc).getD (4 * y'.val + x'.val) 0 =
      acc.getD (4 * y'.val + x'.val) 0 +
        (if x'.val = x.val + 1 ∧ y'.val = y.val then 7 * e
         else if x'.val + 1 = x.val ∧ y'.val = y.val + 1 then 3 * e
         else if x'.val = x.val ∧ y'.val = y.val + 1 then 5 * e
         else if x'.val = x.val + 1 ∧ y'.val = y.val + 1 then 1 * e
         else 0)

/-- R94: a dithered channel is at most 8 from its input; where the bypass of R90 does not apply it is a
5-bit level. R91, R92: there each channel is scanned on its own in row-major order from accumulators 0,
and at each pixel v = clamp(P + floor((acc + 8) / 16), 0, 255), q = expand5(quantize(8v, DIF)) is the
result and v - q the error that is spread. -/
def Obligations.DitherMovesChannelsAtMostEight : Prop :=
  (∀ p : Tile,
    (∀ i : Fin 16, 0 ≤ p[i].r ∧ p[i].r ≤ 255 ∧ 0 ≤ p[i].g ∧ p[i].g ≤ 255 ∧ 0 ≤ p[i].b ∧ p[i].b ≤ 255) →
    ∀ i : Fin 16,
      |(dither p)[i].r - p[i].r| ≤ 8 ∧ |(dither p)[i].g - p[i].g| ≤ 8 ∧ |(dither p)[i].b - p[i].b| ≤ 8 ∧
      (isFlat p = false → onGrid4 p = false → ∃ x y z : BitVec 5,
        (dither p)[i] = { r := expand5 x.toNat, g := expand5 y.toNat, b := expand5 z.toNat })) ∧
  (∀ p : Tile, isFlat p = false → onGrid4 p = false →
    let scanned := fun ch : Rgb → Int => ditherScan 0 (List.replicate 16 0) (pixelNumbers.map fun i => ch p[i])
    ∀ i : Fin 16,
      (scanned Rgb.r)[i.val]? = some (dither p)[i].r ∧ (scanned Rgb.g)[i.val]? = some (dither p)[i].g ∧
      (scanned Rgb.b)[i.val]? = some (dither p)[i].b) ∧
  ∀ (i : Nat) (acc : List Int) (value : Int) (rest : List Int), i < acc.length →
    ∃ a v q : Int, acc[i]? = some a ∧
      v = max 0 (min 255 (value + (a + 8) / 16)) ∧
      q = 8 * quantize (8 * v) .dif + quantize (8 * v) .dif / 4 ∧
      ditherScan i acc (value :: rest) = q :: ditherScan (i + 1) (spreadError i (v - q) acc) rest

/-! ### The block codec and DECOMPRESS -/

/-- R110 (1): unpacking a packed configuration returns its mode, flip, tables, codes and pixel index
values, for every configuration whose codes its mode has and, in differential mode, whose codes
satisfy the delta constraint. -/
def Obligations.UnpackReturnsPackedConfiguration : Prop :=
  ∀ c : Configuration,
    rgbInRange c.mode c.sub1.code = true → rgbInRange c.mode c.sub2.code = true →
    (c.mode = .dif → deltaOk c.sub1.code c.sub2.code = true) →
    (c.mode = .ind → ∃ b : IndBlock,
      decode (blockBytes (pack c)) = .ok (.etc1Individual b) ∧
      c.sub1.code = { r := b.r1.toNat, g := b.g1.toNat, b := b.b1.toNat } ∧
      c.sub2.code = { r := b.r2.toNat, g := b.g2.toNat, b := b.b2.toNat } ∧
      b.table1 = c.sub1.table ∧ b.table2 = c.sub2.table ∧ b.flip = c.flip ∧
      ∀ i : Fin 16, indexFromField b.idxMsb b.idxLsb i = c.indexOf i) ∧
    (c.mode = .dif → ∃ b : DiffBlock,
      decode (blockBytes (pack c)) = .ok (.etc1Diff b) ∧
      c.sub1.code = { r := b.r1.toNat, g := b.g1.toNat, b := b.b1.toNat } ∧
      c.sub2.code = { r := b.r1.toNat + b.dr, g := b.g1.toNat + b.dg, b := b.b1.toNat + b.db } ∧
      b.table1 = c.sub1.table ∧ b.table2 = c.sub2.table ∧ b.flip = c.flip ∧
      ∀ i : Fin 16, indexFromField b.idxMsb b.idxLsb i = c.indexOf i)

/-- R85: the block of the configuration COMPRESS chooses decodes, whatever DIFF_OVERFLOW is, to the
reconstruction of that configuration at every pixel, and its squared error against the quantizer
input is exactly the configuration's total. -/
def Obligations.DecodedErrorIsTheTotal : Prop :=
  ∀ (s : State) (q : Quality) (d : Tile),
    let c := chooseConfiguration s.modTable d q
    let chosen := fun i : Fin 16 => match subOf c.flip i with
      | .one => c.sub1
      | .two => c.sub2
    let decoded : Tile := Vector.ofFn fun i : Fin 16 =>
      recon s.modTable (expandRgb c.mode (chosen i).code) (chosen i).table (c.indexOf i)
    runBlock (pack c) s = .next (s.writeOutRgb decoded) ∧
    (pixelNumbers.map fun i => squaredError decoded[i] d[i]).sum = c.total

/-- R105, R107: ETC1_INDIVIDUAL completes in every state: it writes the R, G and B bytes of OUT_PIX with
the reconstruction from the 4-bit codes times 17, and leaves the A bytes and every other register.
That a block row is run as this stage of DECOMPRESS is the model's reading (assumption log 5). -/
def Obligations.IndividualBlockWritesPixels : Prop :=
  ∀ (b : IndBlock) (s : State),
    let pixel := fun i : Fin 16 =>
      let j := 4 * (i.val % 4) + i.val / 4
      let k := BitVec.ofBool (b.idxMsb.getLsbD j) ++ BitVec.ofBool (b.idxLsb.getLsbD j)
      if (if b.flip then i.val / 4 < 2 else i.val % 4 < 2) then
        recon s.modTable { r := 17 * b.r1.toNat, g := 17 * b.g1.toNat, b := 17 * b.b1.toNat } b.table1 k
      else recon s.modTable { r := 17 * b.r2.toNat, g := 17 * b.g2.toNat, b := 17 * b.b2.toNat } b.table2 k
    exec (.etc1Individual b) s = .next { s with
      outPix := Vector.ofFn fun i : Fin 16 => {
        value := (s.outPix[i]).value.extractLsb' 24 8 ++ BitVec.ofInt 8 (pixel i).b
          ++ BitVec.ofInt 8 (pixel i).g ++ BitVec.ofInt 8 (pixel i).r
        written := (s.outPix[i]).written ||| 0x7#4 } }

/-- R106, R107: ETC1_DIFF completes in every state whose DIFF_OVERFLOW is clamp and, whatever the
parameter, for every block whose second codes are in [0, 31]; with `fault` the others stop. A block
row is run as this stage of DECOMPRESS (assumption log 5). -/
def Obligations.DifferentialBlockWritesPixels : Prop :=
  ∀ (b : DiffBlock) (s : State),
    let inRange := 0 ≤ b.r1.toNat + b.dr ∧ b.r1.toNat + b.dr ≤ 31 ∧ 0 ≤ b.g1.toNat + b.dg ∧
      b.g1.toNat + b.dg ≤ 31 ∧ 0 ≤ b.b1.toNat + b.db ∧ b.b1.toNat + b.db ≤ 31
    let level := fun v : Int => 8 * max 0 (min 31 v) + max 0 (min 31 v) / 4
    let base1 : Rgb := { r := level b.r1.toNat, g := level b.g1.toNat, b := level b.b1.toNat }
    let base2 : Rgb :=
      { r := level (b.r1.toNat + b.dr), g := level (b.g1.toNat + b.dg), b := level (b.b1.toNat + b.db) }
    let pixel := fun i : Fin 16 =>
      let j := 4 * (i.val % 4) + i.val / 4
      let k := BitVec.ofBool (b.idxMsb.getLsbD j) ++ BitVec.ofBool (b.idxLsb.getLsbD j)
      if (if b.flip then i.val / 4 < 2 else i.val % 4 < 2) then recon s.modTable base1 b.table1 k
      else recon s.modTable base2 b.table2 k
    (s.params.diffOverflow = .clamp ∨ inRange →
      exec (.etc1Diff b) s = .next { s with
        outPix := Vector.ofFn fun i : Fin 16 => {
          value := (s.outPix[i]).value.extractLsb' 24 8 ++ BitVec.ofInt 8 (pixel i).b
            ++ BitVec.ofInt 8 (pixel i).g ++ BitVec.ofInt 8 (pixel i).r
          written := (s.outPix[i]).written ||| 0x7#4 } }) ∧
    (s.params.diffOverflow = .fault → ¬inRange → exec (.etc1Diff b) s = .fault .diffOverflow)

/-- R108, R109: DECOMPRESS after INIT, whatever has been written, runs one block, whose written halves are
those of IN_BLOCK (an unwritten one is free: the model's choice, R127, U3, logs 3, 7), and, where that completes, completes: A is 255 everywhere
or untouched, VALID becomes 1, LAST_ERR 0, and nothing else changes. Where the block stops, DECOMPRESS
stops with it. That what it runs is a block row's `exec` is the model's reading (assumption log 5). -/
def Obligations.DecompressRunsTheBlock : Prop :=
  ∀ s : State, s.status.initDone = true →
    ∃ blk : Block,
      (s.inBlockHi.written = 0xF#4 → blk.extractLsb' 32 32 = s.inBlockHi.value) ∧
      (s.inBlockLo.written = 0xF#4 → blk.extractLsb' 0 32 = s.inBlockLo.value) ∧
      ∀ a : Bool,
        (∀ u, exec (decodeBlock blk) s = .next u →
          exec (.decompress a) s = .next { s with
            outPix := Vector.ofFn fun i : Fin 16 => {
              value := (if a then (s.outPix[i]).value.extractLsb' 24 8 else 255#8)
                ++ (u.outPix[i]).value.extractLsb' 0 24
              written := if a then (s.outPix[i]).written ||| 0x7#4 else 0xF#4 }
            status := { s.status with valid := true, lastErr := .none } }) ∧
        (∀ r, exec (decodeBlock blk) s = .fault r → exec (.decompress a) s = .fault r)

/-- R106, R108, R126: with DIFF_OVERFLOW = clamp no block makes DECOMPRESS fail, and with either parameter
no individual block does and no differential block whose second codes are all in [0, 31]: it completes
for every state after INIT. That under clamp no half of IN_BLOCK, and else not the low one, need have
been written is the model's choice (assumption log 7; R127's last sentence, U3): R108 faults there and
R126 asks that inputs are written. -/
def Obligations.DecompressNeverRejectsABlock : Prop :=
  ∀ (s : State) (a : Bool),
    let hi := s.inBlockHi.value
    s.status.initDone = true →
    (s.params.diffOverflow = .clamp ∨
      (s.inBlockHi.written = 0xF#4 ∧
        (hi.getLsbD 1 = false ∨
          ∀ field ∈ [(27, 24), (19, 16), (11, 8)],
            0 ≤ ((hi.extractLsb' field.1 5).toNat : Int) + (hi.extractLsb' field.2 3).toInt ∧
            ((hi.extractLsb' field.1 5).toNat : Int) + (hi.extractLsb' field.2 3).toInt ≤ 31))) →
    ∃ t, exec (.decompress a) s = .next t ∧ t.status.valid = true ∧ t.status.lastErr = .none ∧
      (a = false → ∀ i : Fin 16, (t.outPix[i]).written = 0xF#4 ∧ (t.outPix[i]).value.extractLsb' 24 8 = 255#8)

/-- R110 (2): the colours DECOMPRESS writes depend on the 64 block bits alone (for one table store and
parameter): two states that differ in anything else get the same R, G and B bytes. -/
def Obligations.DecompressDependsOnlyOnBlock : Prop :=
  ∀ (s t s' t' : State) (a a' : Bool),
    s.status.initDone = true → t.status.initDone = true →
    s.inBlockHi.written = 0xF#4 → s.inBlockLo.written = 0xF#4 →
    s.inBlockHi = t.inBlockHi → s.inBlockLo = t.inBlockLo →
    s.modTable = t.modTable → s.params.diffOverflow = t.params.diffOverflow →
    exec (.decompress a) s = .next s' → exec (.decompress a') t = .next t' →
    ∀ i : Fin 16, (s'.outPix[i]).value.extractLsb' 0 24 = (t'.outPix[i]).value.extractLsb' 0 24

/-! ### Steps -/

/-- R12, R28: a step whose next access writes a legal word to CMD is the decoded instruction's `exec` on
the state without that access; an idle step changes nothing (R135). -/
def Obligations.StepRunsDecodedCommand : Prop :=
  (∀ (s : State) (w : Word) (rest : List HostEvent) (i : Instr),
    s.queue = .write 0x000 4 w :: rest → decode (commandBytes w) = .ok i →
    step s = exec i { s with queue := rest, hostData := none }) ∧
  (∀ (s : State) (e : HostEvent) (rest : List HostEvent),
    s.queue = e :: rest → step s = performEvent e { s with queue := rest }) ∧
  (∀ s : State, s.queue = [] → step s = .next s)

/-- R37, R104, R108: a step whose next access writes DECOMPRESS runs the instruction the bytes of
IN_BLOCK decode to (of the block a DECOMPRESS reads, which is IN_BLOCK's where both halves are written),
with DECOMPRESS's own writes of alpha and STATUS around it. That a block row's `exec` is this stage of
DECOMPRESS is the model's choice (assumption log 5), and so is that a step with an unwritten half, where
R108 faults, goes on (assumption log 7; R127, U3). -/
def Obligations.StepRunsDecodedBlock : Prop :=
  (∀ s : State, s.inBlockHi.written = 0xF#4 → s.inBlockLo.written = 0xF#4 →
    readBlock s = s.inBlockHi.value ++ s.inBlockLo.value) ∧
  ∀ (s u : State) (a : Bool) (rest : List HostEvent) (i : Instr),
    s.queue = .write 0x000 4 (decompressWord a) :: rest → s.status.initDone = true →
    decode (blockBytes (readBlock s)) = .ok i →
    exec i { s with queue := rest, hostData := none } = .next u →
    step s = .next (finishDecompress a u)

/-! ### Platforms of several codecs -/

/-- R132: an event at one codec changes no other codec and no base address; in particular INIT at one
does not initialise another. -/
def Obligations.OtherCodecsAreUntouched : Prop :=
  ∀ (p q : Platform) (i : Nat) (e : HostEvent), p.deliver i e = .next q →
    q.slots.length = p.slots.length ∧ q.slots.map Slot.base = p.slots.map Slot.base ∧
    (∀ j, j ≠ i → q.slots[j]? = p.slots[j]?) ∧
    ∃ sl sl' : Slot, p.slots[i]? = some sl ∧ q.slots[i]? = some sl' ∧
      performEvent e sl.unit = .next sl'.unit

/-- R133: whatever the interleaving, each codec ends as if its own events had been performed one after
another with nothing in between. -/
def Obligations.ConcurrentUseEqualsSequentialUse : Prop :=
  ∀ (schedule : List (Nat × HostEvent)) (p q : Platform), p.run schedule = .next q →
    q.slots.length = p.slots.length ∧
    ∀ (i : Nat) (sl : Slot), p.slots[i]? = some sl →
      ∃ u : State, runEvents sl.unit (eventsOf i schedule) = .next u ∧
        q.slots[i]? = some { sl with unit := u }

/-- R6, R23: on a well-formed platform every address of a codec's 256-byte register space reaches that
codec at its own offset. -/
def Obligations.AddressesReachTheirCodec : Prop :=
  ∀ (p : Platform) (i : Nat) (sl : Slot) (off width : Nat) (v : Word),
    p.wf = true → p.slots[i]? = some sl → off < 256 →
    p.read (sl.base + off) width = p.deliver i (.read off width) ∧
    p.write (sl.base + off) width v = p.deliver i (.write off width v)
end

