-- ==== Sys2Proof/Laws/Argmin.lean ====
section
/-!
SUPPORT. What `argmin` and `firstMin` do (R8): the result is in the list, nothing is smaller, and
everything before it is larger.
-/

namespace Sys2Proof.Machine

variable {α : Type}

theorem argmin_mem (f : α → Int) (a : α) (l : List α) : argmin f a l ∈ a :: l := by
  induction l generalizing a with
  | nil => simp [argmin]
  | cons c rest ih =>
    have := ih (if f c < f a then c else a)
    simp only [argmin, List.mem_cons] at this ⊢
    by_cases hc : f c < f a
    · simp only [hc, if_true] at this ⊢; tauto
    · simp only [hc, if_false] at this ⊢; tauto

theorem argmin_le_first (f : α → Int) (a : α) (l : List α) : f (argmin f a l) ≤ f a := by
  induction l generalizing a with
  | nil => simp [argmin]
  | cons c rest ih =>
    have h := ih (if f c < f a then c else a)
    simp only [argmin]
    split at h <;> rename_i hc
    · simp only [hc, if_true]; omega
    · simpa only [hc, if_false] using h

theorem argmin_le_of_mem (f : α → Int) (a : α) (l : List α) {x : α} (hx : x ∈ a :: l) :
    f (argmin f a l) ≤ f x := by
  induction l generalizing a with
  | nil =>
    simp only [List.mem_singleton] at hx
    simp [argmin, hx]
  | cons c rest ih =>
    simp only [argmin]
    by_cases hc : f c < f a
    · simp only [hc, if_true]
      have hfirst := argmin_le_first f c rest
      rcases List.mem_cons.mp hx with rfl | hx
      · omega
      · exact ih c hx
    · simp only [hc, if_false]
      have hfirst := argmin_le_first f a rest
      rcases List.mem_cons.mp hx with rfl | hx
      · exact hfirst
      · rcases List.mem_cons.mp hx with rfl | hx
        · omega
        · exact ih a (List.mem_cons_of_mem _ hx)

/-- The list splits at the result: all before it are strictly larger, none after it is smaller. -/
theorem argmin_split (f : α → Int) (a : α) (l : List α) :
    ∃ pre post, a :: l = pre ++ argmin f a l :: post ∧ (∀ x ∈ pre, f (argmin f a l) < f x) ∧
      ∀ x ∈ post, f (argmin f a l) ≤ f x := by
  induction l generalizing a with
  | nil => exact ⟨[], [], by simp [argmin], by simp, by simp⟩
  | cons c rest ih =>
    simp only [argmin]
    by_cases hc : f c < f a
    · simp only [hc, if_true]
      obtain ⟨pre, post, hl, hpre, hpost⟩ := ih c
      refine ⟨a :: pre, post, by rw [hl]; rfl, ?_, hpost⟩
      intro x hx
      rcases List.mem_cons.mp hx with rfl | hx
      · have := argmin_le_first f c rest; omega
      · exact hpre x hx
    · simp only [hc, if_false]
      obtain ⟨pre, post, hl, hpre, hpost⟩ := ih a
      cases pre with
      | nil =>
        simp only [List.nil_append, List.cons.injEq] at hl
        refine ⟨[], c :: rest, by rw [← hl.1]; rfl, by simp, ?_⟩
        rw [← hl.1]
        intro x hx
        rcases List.mem_cons.mp hx with rfl | hx
        · omega
        · rw [hl.2] at hx
          have := hpost x hx
          rwa [← hl.1] at this
      | cons b pre =>
        simp only [List.cons_append, List.cons.injEq] at hl
        obtain ⟨rfl, hl⟩ := hl
        have ha := hpre a (by simp)
        refine ⟨a :: c :: pre, post, congrArg (a :: c :: ·) hl, ?_, hpost⟩
        intro x hx
        rcases List.mem_cons.mp hx with rfl | hx
        · exact ha
        · rcases List.mem_cons.mp hx with rfl | hx
          · omega
          · exact hpre x (by simp [hx])

theorem firstMin_eq_none (f : α → Int) (l : List α) : firstMin f l = none ↔ l = [] := by
  cases l <;> simp [firstMin]

theorem firstMin_mem {f : α → Int} {l : List α} {x : α} (h : firstMin f l = some x) : x ∈ l := by
  cases l with
  | nil => simp [firstMin] at h
  | cons a l =>
    simp only [firstMin, Option.some.injEq] at h
    exact h ▸ argmin_mem f a l

theorem firstMin_le {f : α → Int} {l : List α} {x y : α} (h : firstMin f l = some x) (hy : y ∈ l) :
    f x ≤ f y := by
  cases l with
  | nil => simp at hy
  | cons a l =>
    simp only [firstMin, Option.some.injEq] at h
    exact h ▸ argmin_le_of_mem f a l hy

theorem firstMin_split {f : α → Int} {l : List α} {x : α} (h : firstMin f l = some x) :
    ∃ pre post, l = pre ++ x :: post ∧ (∀ y ∈ pre, f x < f y) ∧ ∀ y ∈ post, f x ≤ f y := by
  cases l with
  | nil => simp [firstMin] at h
  | cons a l =>
    simp only [firstMin, Option.some.injEq] at h
    exact h ▸ argmin_split f a l

end Sys2Proof.Machine
end

