-- ==== Sys2Proof/Laws/State.lean ====
section
/-!
SUPPORT. The small lemmas of the state: one per field per update, and the fields of STATUS under its
updates, so that no later proof unfolds a record update.
-/

namespace Sys2Proof.Machine

/-! ### STATUS -/

@[simp] theorem Status.setInitDone_initDone (st : Status) : (st.setInitDone).initDone = true := rfl
@[simp] theorem Status.setInitDone_errSticky (st : Status) : (st.setInitDone).errSticky = st.errSticky := rfl
@[simp] theorem Status.setInitDone_lastErr (st : Status) : (st.setInitDone).lastErr = st.lastErr := rfl
@[simp] theorem Status.setInitDone_valid (st : Status) : (st.setInitDone).valid = st.valid := rfl
@[simp] theorem Status.setValid_initDone (st : Status) : (st.setValid).initDone = st.initDone := rfl
@[simp] theorem Status.setValid_errSticky (st : Status) : (st.setValid).errSticky = st.errSticky := rfl
@[simp] theorem Status.setValid_lastErr (st : Status) : (st.setValid).lastErr = st.lastErr := rfl
@[simp] theorem Status.setValid_valid (st : Status) : (st.setValid).valid = true := rfl
@[simp] theorem Status.succeed_initDone (st : Status) : (st.succeed).initDone = st.initDone := rfl
@[simp] theorem Status.succeed_errSticky (st : Status) : (st.succeed).errSticky = st.errSticky := rfl
@[simp] theorem Status.succeed_lastErr (st : Status) : (st.succeed).lastErr = .none := rfl
@[simp] theorem Status.succeed_valid (st : Status) : (st.succeed).valid = st.valid := rfl
@[simp] theorem Status.fail_initDone (st : Status) (code : ErrCode) : (st.fail code).initDone = st.initDone := rfl
@[simp] theorem Status.fail_errSticky (st : Status) (code : ErrCode) : (st.fail code).errSticky = true := rfl
@[simp] theorem Status.fail_lastErr (st : Status) (code : ErrCode) : (st.fail code).lastErr = code := rfl
@[simp] theorem Status.fail_valid (st : Status) (code : ErrCode) : (st.fail code).valid = st.valid := rfl

/-! ### Updates of the state -/

@[simp] theorem State.raiseError_status (s : State) (code : ErrCode) :
    (s.raiseError code).status = s.status.fail code := rfl
@[simp] theorem State.raiseError_inPix (s : State) (code : ErrCode) :
    (s.raiseError code).inPix = s.inPix := rfl
@[simp] theorem State.raiseError_inBlockHi (s : State) (code : ErrCode) :
    (s.raiseError code).inBlockHi = s.inBlockHi := rfl
@[simp] theorem State.raiseError_inBlockLo (s : State) (code : ErrCode) :
    (s.raiseError code).inBlockLo = s.inBlockLo := rfl
@[simp] theorem State.raiseError_outBlockHi (s : State) (code : ErrCode) :
    (s.raiseError code).outBlockHi = s.outBlockHi := rfl
@[simp] theorem State.raiseError_outBlockLo (s : State) (code : ErrCode) :
    (s.raiseError code).outBlockLo = s.outBlockLo := rfl
@[simp] theorem State.raiseError_outPix (s : State) (code : ErrCode) :
    (s.raiseError code).outPix = s.outPix := rfl
@[simp] theorem State.raiseError_modTable (s : State) (code : ErrCode) :
    (s.raiseError code).modTable = s.modTable := rfl
@[simp] theorem State.raiseError_params (s : State) (code : ErrCode) :
    (s.raiseError code).params = s.params := rfl
@[simp] theorem State.raiseError_epoch (s : State) (code : ErrCode) :
    (s.raiseError code).epoch = s.epoch := rfl
@[simp] theorem State.raiseError_draws (s : State) (code : ErrCode) :
    (s.raiseError code).draws = s.draws := rfl
@[simp] theorem State.raiseError_queue (s : State) (code : ErrCode) :
    (s.raiseError code).queue = s.queue := rfl
@[simp] theorem State.raiseError_hostData (s : State) (code : ErrCode) :
    (s.raiseError code).hostData = s.hostData := rfl
@[simp] theorem State.commandDone_status (s : State) : s.commandDone.status = s.status.succeed := rfl
@[simp] theorem State.commandDone_inPix (s : State) : s.commandDone.inPix = s.inPix := rfl
@[simp] theorem State.commandDone_inBlockHi (s : State) : s.commandDone.inBlockHi = s.inBlockHi := rfl
@[simp] theorem State.commandDone_inBlockLo (s : State) : s.commandDone.inBlockLo = s.inBlockLo := rfl
@[simp] theorem State.commandDone_outBlockHi (s : State) : s.commandDone.outBlockHi = s.outBlockHi := rfl
@[simp] theorem State.commandDone_outBlockLo (s : State) : s.commandDone.outBlockLo = s.outBlockLo := rfl
@[simp] theorem State.commandDone_outPix (s : State) : s.commandDone.outPix = s.outPix := rfl
@[simp] theorem State.commandDone_modTable (s : State) : s.commandDone.modTable = s.modTable := rfl
@[simp] theorem State.commandDone_params (s : State) : s.commandDone.params = s.params := rfl
@[simp] theorem State.commandDone_epoch (s : State) : s.commandDone.epoch = s.epoch := rfl
@[simp] theorem State.commandDone_draws (s : State) : s.commandDone.draws = s.draws := rfl
@[simp] theorem State.commandDone_queue (s : State) : s.commandDone.queue = s.queue := rfl
@[simp] theorem State.commandDone_hostData (s : State) : s.commandDone.hostData = s.hostData := rfl
@[simp] theorem State.markInitDone_status (s : State) : s.markInitDone.status = s.status.setInitDone := rfl
@[simp] theorem State.markInitDone_inPix (s : State) : s.markInitDone.inPix = s.inPix := rfl
@[simp] theorem State.markInitDone_inBlockHi (s : State) : s.markInitDone.inBlockHi = s.inBlockHi := rfl
@[simp] theorem State.markInitDone_inBlockLo (s : State) : s.markInitDone.inBlockLo = s.inBlockLo := rfl
@[simp] theorem State.markInitDone_outBlockHi (s : State) : s.markInitDone.outBlockHi = s.outBlockHi := rfl
@[simp] theorem State.markInitDone_outBlockLo (s : State) : s.markInitDone.outBlockLo = s.outBlockLo := rfl
@[simp] theorem State.markInitDone_outPix (s : State) : s.markInitDone.outPix = s.outPix := rfl
@[simp] theorem State.markInitDone_modTable (s : State) : s.markInitDone.modTable = s.modTable := rfl
@[simp] theorem State.markInitDone_params (s : State) : s.markInitDone.params = s.params := rfl
@[simp] theorem State.markInitDone_epoch (s : State) : s.markInitDone.epoch = s.epoch := rfl
@[simp] theorem State.markInitDone_draws (s : State) : s.markInitDone.draws = s.draws := rfl
@[simp] theorem State.markInitDone_queue (s : State) : s.markInitDone.queue = s.queue := rfl
@[simp] theorem State.markInitDone_hostData (s : State) : s.markInitDone.hostData = s.hostData := rfl
@[simp] theorem State.markValid_status (s : State) : s.markValid.status = s.status.setValid := rfl
@[simp] theorem State.markValid_inPix (s : State) : s.markValid.inPix = s.inPix := rfl
@[simp] theorem State.markValid_inBlockHi (s : State) : s.markValid.inBlockHi = s.inBlockHi := rfl
@[simp] theorem State.markValid_inBlockLo (s : State) : s.markValid.inBlockLo = s.inBlockLo := rfl
@[simp] theorem State.markValid_outBlockHi (s : State) : s.markValid.outBlockHi = s.outBlockHi := rfl
@[simp] theorem State.markValid_outBlockLo (s : State) : s.markValid.outBlockLo = s.outBlockLo := rfl
@[simp] theorem State.markValid_outPix (s : State) : s.markValid.outPix = s.outPix := rfl
@[simp] theorem State.markValid_modTable (s : State) : s.markValid.modTable = s.modTable := rfl
@[simp] theorem State.markValid_params (s : State) : s.markValid.params = s.params := rfl
@[simp] theorem State.markValid_epoch (s : State) : s.markValid.epoch = s.epoch := rfl
@[simp] theorem State.markValid_draws (s : State) : s.markValid.draws = s.draws := rfl
@[simp] theorem State.markValid_queue (s : State) : s.markValid.queue = s.queue := rfl
@[simp] theorem State.markValid_hostData (s : State) : s.markValid.hostData = s.hostData := rfl
@[simp] theorem State.writeOutBlock_status (s : State) (blk : Block) :
    (s.writeOutBlock blk).status = s.status := rfl
@[simp] theorem State.writeOutBlock_inPix (s : State) (blk : Block) :
    (s.writeOutBlock blk).inPix = s.inPix := rfl
@[simp] theorem State.writeOutBlock_inBlockHi (s : State) (blk : Block) :
    (s.writeOutBlock blk).inBlockHi = s.inBlockHi := rfl
@[simp] theorem State.writeOutBlock_inBlockLo (s : State) (blk : Block) :
    (s.writeOutBlock blk).inBlockLo = s.inBlockLo := rfl
@[simp] theorem State.writeOutBlock_outBlockHi (s : State) (blk : Block) :
    (s.writeOutBlock blk).outBlockHi = DataReg.store (blk.extractLsb' 32 32) := rfl
@[simp] theorem State.writeOutBlock_outBlockLo (s : State) (blk : Block) :
    (s.writeOutBlock blk).outBlockLo = DataReg.store (blk.extractLsb' 0 32) := rfl
@[simp] theorem State.writeOutBlock_outPix (s : State) (blk : Block) :
    (s.writeOutBlock blk).outPix = s.outPix := rfl
@[simp] theorem State.writeOutBlock_modTable (s : State) (blk : Block) :
    (s.writeOutBlock blk).modTable = s.modTable := rfl
@[simp] theorem State.writeOutBlock_params (s : State) (blk : Block) :
    (s.writeOutBlock blk).params = s.params := rfl
@[simp] theorem State.writeOutBlock_epoch (s : State) (blk : Block) :
    (s.writeOutBlock blk).epoch = s.epoch := rfl
@[simp] theorem State.writeOutBlock_draws (s : State) (blk : Block) :
    (s.writeOutBlock blk).draws = s.draws := rfl
@[simp] theorem State.writeOutBlock_queue (s : State) (blk : Block) :
    (s.writeOutBlock blk).queue = s.queue := rfl
@[simp] theorem State.writeOutBlock_hostData (s : State) (blk : Block) :
    (s.writeOutBlock blk).hostData = s.hostData := rfl
@[simp] theorem State.writeOutRgb_status (s : State) (pixels : Tile) :
    (s.writeOutRgb pixels).status = s.status := rfl
@[simp] theorem State.writeOutRgb_inPix (s : State) (pixels : Tile) :
    (s.writeOutRgb pixels).inPix = s.inPix := rfl
@[simp] theorem State.writeOutRgb_inBlockHi (s : State) (pixels : Tile) :
    (s.writeOutRgb pixels).inBlockHi = s.inBlockHi := rfl
@[simp] theorem State.writeOutRgb_inBlockLo (s : State) (pixels : Tile) :
    (s.writeOutRgb pixels).inBlockLo = s.inBlockLo := rfl
@[simp] theorem State.writeOutRgb_outBlockHi (s : State) (pixels : Tile) :
    (s.writeOutRgb pixels).outBlockHi = s.outBlockHi := rfl
@[simp] theorem State.writeOutRgb_outBlockLo (s : State) (pixels : Tile) :
    (s.writeOutRgb pixels).outBlockLo = s.outBlockLo := rfl
@[simp] theorem State.writeOutRgb_outPix (s : State) (pixels : Tile) :
    (s.writeOutRgb pixels).outPix = Vector.ofFn fun i : Fin 16 => (s.outPix[i]).storeRgb pixels[i] := rfl
@[simp] theorem State.writeOutRgb_modTable (s : State) (pixels : Tile) :
    (s.writeOutRgb pixels).modTable = s.modTable := rfl
@[simp] theorem State.writeOutRgb_params (s : State) (pixels : Tile) :
    (s.writeOutRgb pixels).params = s.params := rfl
@[simp] theorem State.writeOutRgb_epoch (s : State) (pixels : Tile) :
    (s.writeOutRgb pixels).epoch = s.epoch := rfl
@[simp] theorem State.writeOutRgb_draws (s : State) (pixels : Tile) :
    (s.writeOutRgb pixels).draws = s.draws := rfl
@[simp] theorem State.writeOutRgb_queue (s : State) (pixels : Tile) :
    (s.writeOutRgb pixels).queue = s.queue := rfl
@[simp] theorem State.writeOutRgb_hostData (s : State) (pixels : Tile) :
    (s.writeOutRgb pixels).hostData = s.hostData := rfl
@[simp] theorem State.platformReset_status (s : State) : s.platformReset.status = State.reset.status := rfl
@[simp] theorem State.platformReset_inPix (s : State) : s.platformReset.inPix = State.reset.inPix := rfl
@[simp] theorem State.platformReset_inBlockHi (s : State) :
    s.platformReset.inBlockHi = State.reset.inBlockHi := rfl
@[simp] theorem State.platformReset_inBlockLo (s : State) :
    s.platformReset.inBlockLo = State.reset.inBlockLo := rfl
@[simp] theorem State.platformReset_outBlockHi (s : State) :
    s.platformReset.outBlockHi = State.reset.outBlockHi := rfl
@[simp] theorem State.platformReset_outBlockLo (s : State) :
    s.platformReset.outBlockLo = State.reset.outBlockLo := rfl
@[simp] theorem State.platformReset_outPix (s : State) : s.platformReset.outPix = State.reset.outPix := rfl
@[simp] theorem State.platformReset_modTable (s : State) :
    s.platformReset.modTable = State.reset.modTable := rfl
@[simp] theorem State.platformReset_params (s : State) : s.platformReset.params = s.params := rfl
@[simp] theorem State.platformReset_epoch (s : State) : s.platformReset.epoch = s.epoch + 1 := rfl
@[simp] theorem State.platformReset_draws (s : State) : s.platformReset.draws = s.draws := rfl
@[simp] theorem State.platformReset_queue (s : State) : s.platformReset.queue = s.queue := rfl
@[simp] theorem State.platformReset_hostData (s : State) :
    s.platformReset.hostData = State.reset.hostData := rfl
@[simp] theorem State.writeOutAlpha_status (s : State) (preserve : Bool) :
    (s.writeOutAlpha preserve).status = s.status := by cases preserve <;> rfl
@[simp] theorem State.writeOutAlpha_inPix (s : State) (preserve : Bool) :
    (s.writeOutAlpha preserve).inPix = s.inPix := by cases preserve <;> rfl
@[simp] theorem State.writeOutAlpha_inBlockHi (s : State) (preserve : Bool) :
    (s.writeOutAlpha preserve).inBlockHi = s.inBlockHi := by cases preserve <;> rfl
@[simp] theorem State.writeOutAlpha_inBlockLo (s : State) (preserve : Bool) :
    (s.writeOutAlpha preserve).inBlockLo = s.inBlockLo := by cases preserve <;> rfl
@[simp] theorem State.writeOutAlpha_outBlockHi (s : State) (preserve : Bool) :
    (s.writeOutAlpha preserve).outBlockHi = s.outBlockHi := by cases preserve <;> rfl
@[simp] theorem State.writeOutAlpha_outBlockLo (s : State) (preserve : Bool) :
    (s.writeOutAlpha preserve).outBlockLo = s.outBlockLo := by cases preserve <;> rfl
@[simp] theorem State.writeOutAlpha_modTable (s : State) (preserve : Bool) :
    (s.writeOutAlpha preserve).modTable = s.modTable := by cases preserve <;> rfl
@[simp] theorem State.writeOutAlpha_params (s : State) (preserve : Bool) :
    (s.writeOutAlpha preserve).params = s.params := by cases preserve <;> rfl
@[simp] theorem State.writeOutAlpha_epoch (s : State) (preserve : Bool) :
    (s.writeOutAlpha preserve).epoch = s.epoch := by cases preserve <;> rfl
@[simp] theorem State.writeOutAlpha_draws (s : State) (preserve : Bool) :
    (s.writeOutAlpha preserve).draws = s.draws := by cases preserve <;> rfl
@[simp] theorem State.writeOutAlpha_queue (s : State) (preserve : Bool) :
    (s.writeOutAlpha preserve).queue = s.queue := by cases preserve <;> rfl
@[simp] theorem State.writeOutAlpha_hostData (s : State) (preserve : Bool) :
    (s.writeOutAlpha preserve).hostData = s.hostData := by cases preserve <;> rfl
@[simp] theorem State.writeOutAlpha_true (s : State) : s.writeOutAlpha true = s := rfl
@[simp] theorem State.writeOutAlpha_false_outPix (s : State) :
    (s.writeOutAlpha false).outPix = Vector.ofFn fun i : Fin 16 => (s.outPix[i]).storeAlpha255 := rfl

/-! ### A host write of one register -/

@[simp] theorem State.storeReg_status (s : State) (n : RegName) (w : Word) :
    (s.storeReg n w).status = s.status := by cases n <;> rfl
@[simp] theorem State.storeReg_outBlockHi (s : State) (n : RegName) (w : Word) :
    (s.storeReg n w).outBlockHi = s.outBlockHi := by cases n <;> rfl
@[simp] theorem State.storeReg_outBlockLo (s : State) (n : RegName) (w : Word) :
    (s.storeReg n w).outBlockLo = s.outBlockLo := by cases n <;> rfl
@[simp] theorem State.storeReg_modTable (s : State) (n : RegName) (w : Word) :
    (s.storeReg n w).modTable = s.modTable := by cases n <;> rfl
@[simp] theorem State.storeReg_params (s : State) (n : RegName) (w : Word) :
    (s.storeReg n w).params = s.params := by cases n <;> rfl
@[simp] theorem State.storeReg_epoch (s : State) (n : RegName) (w : Word) :
    (s.storeReg n w).epoch = s.epoch := by cases n <;> rfl
@[simp] theorem State.storeReg_draws (s : State) (n : RegName) (w : Word) :
    (s.storeReg n w).draws = s.draws := by cases n <;> rfl
@[simp] theorem State.storeReg_queue (s : State) (n : RegName) (w : Word) :
    (s.storeReg n w).queue = s.queue := by cases n <;> rfl
@[simp] theorem State.storeReg_hostData (s : State) (n : RegName) (w : Word) :
    (s.storeReg n w).hostData = s.hostData := by cases n <;> rfl

@[simp] theorem State.storeReg_inBlockHi (s : State) (n : RegName) (w : Word) :
    (s.storeReg n w).inBlockHi = if n = .inBlockHi then DataReg.store w else s.inBlockHi := by cases n <;> rfl
@[simp] theorem State.storeReg_inBlockLo (s : State) (n : RegName) (w : Word) :
    (s.storeReg n w).inBlockLo = if n = .inBlockLo then DataReg.store w else s.inBlockLo := by cases n <;> rfl

/-! ### Pixel by pixel -/

@[simp] theorem State.storeReg_inPix_get (s : State) (n : RegName) (w : Word) (i : Fin 16) :
    ((s.storeReg n w).inPix)[i] = if n = .inPix i then DataReg.store w else s.inPix[i] := by
  cases n <;> simp [State.storeReg, Vector.getElem_set, Fin.ext_iff]

@[simp] theorem State.storeReg_outPix_get (s : State) (n : RegName) (w : Word) (i : Fin 16) :
    ((s.storeReg n w).outPix)[i] = if n = .outPix i then DataReg.store w else s.outPix[i] := by
  cases n <;> simp [State.storeReg, Vector.getElem_set, Fin.ext_iff]

@[simp] theorem State.writeOutRgb_get (s : State) (pixels : Tile) (i : Fin 16) :
    ((s.writeOutRgb pixels).outPix)[i] = (s.outPix[i]).storeRgb pixels[i] := by
  simp [State.writeOutRgb]

@[simp] theorem State.writeOutAlpha_false_get (s : State) (i : Fin 16) :
    ((s.writeOutAlpha false).outPix)[i] = (s.outPix[i]).storeAlpha255 := by
  simp [State.writeOutAlpha]

@[simp] theorem State.reset_inPix_get (i : Fin 16) : State.reset.inPix[i] = DataReg.unwritten := by
  simp [State.reset]

@[simp] theorem State.reset_outPix_get (i : Fin 16) : State.reset.outPix[i] = DataReg.unwritten := by
  simp [State.reset]

end Sys2Proof.Machine
end

