-- ==== Sys2Proof/Laws/Ops.lean ====
section
/-!
SUPPORT. What the shared operations over registers do, said once: definedness of a data register
under each write, the register map in both directions, and reads after a host write.
-/

namespace Sys2Proof.Machine

/-! ### One data register -/

@[simp] theorem DataReg.store_value (w : Word) : (DataReg.store w).value = w := rfl
@[simp] theorem DataReg.store_written (w : Word) : (DataReg.store w).written = 0xF#4 := rfl
@[simp] theorem DataReg.store_isWritten (w : Word) : (DataReg.store w).isWritten = true := rfl
@[simp] theorem DataReg.unwritten_written : DataReg.unwritten.written = 0x0#4 := rfl

@[simp] theorem DataReg.storeRgb_written (p : Rgb) (d : DataReg) :
    (d.storeRgb p).written = d.written ||| 0x7#4 := rfl

@[simp] theorem DataReg.storeAlpha255_written (d : DataReg) :
    d.storeAlpha255.written = d.written ||| 0x8#4 := rfl

theorem DataReg.isWritten_iff (d : DataReg) : d.isWritten = true ↔ d.written = 0xF#4 := by
  simp [DataReg.isWritten]

/-- The colour bytes and the A byte make a whole word. -/
theorem written_rgb_alpha (m : BitVec 4) : m ||| 0x7#4 ||| 0x8#4 = 0xF#4 := by
  revert m; decide

theorem DataReg.storeRgb_pixelWord (p : Rgb) (d : DataReg) (h : d.pixelWord) : (d.storeRgb p).pixelWord := by
  rcases h with h | h | h <;> simp [DataReg.pixelWord, h]

theorem DataReg.storeAlpha255_storeRgb_pixelWord (p : Rgb) (d : DataReg) :
    (d.storeRgb p).storeAlpha255.pixelWord := by
  simp [DataReg.pixelWord, written_rgb_alpha]

theorem DataReg.storeRgb_written_ne (p : Rgb) (d : DataReg) : (d.storeRgb p).written ≠ 0x0#4 := by
  have : ∀ m : BitVec 4, m ||| 0x7#4 ≠ 0x0#4 := by decide
  exact this d.written

/-- A written register shows its value; no free value is drawn. -/
theorem DataReg.wordShown_of_isWritten (u e o : Nat) (d : DataReg) (h : d.isWritten = true) :
    d.wordShown u e o = d.value := by
  simp [DataReg.wordShown, h]

/-! ### The register map (R23) -/

theorem regAt_regOffset (n : RegName) : regAt (regOffset n) = some n := by
  cases n with
  | inPix i => revert i; decide
  | outPix i => revert i; decide
  | _ => decide

theorem regOffset_lt (n : RegName) : regOffset n < 0x0A0 := by
  cases n <;> simp only [regOffset] <;> omega

theorem regOffset_of_regAt {off : Nat} {n : RegName} (h : regAt off = some n) : regOffset n = off := by
  have lt : off < 0x0A0 := by
    by_contra hge
    simp only [regAt] at h
    split_ifs at h <;> omega
  have all : ∀ o : Fin 0x0A0, ∀ m ∈ regAt o.val, regOffset m = o.val := by decide +kernel
  exact all ⟨off, lt⟩ n h

/-- Two registers have one offset only if they are one register (R10: no aliasing). -/
theorem regOffset_injective {m n : RegName} (h : regOffset m = regOffset n) : m = n := by
  have := regAt_regOffset m
  rw [h, regAt_regOffset n] at this
  exact (Option.some.inj this).symm

/-! ### Operands -/

theorem mem_pixelNumbers (i : Fin 16) : i ∈ pixelNumbers := by revert i; decide

theorem State.shown_of_written (s : State) (n : RegName) {d : DataReg} (h : d.written = 0xF#4) :
    s.shown n d = d.value :=
  DataReg.wordShown_of_isWritten _ _ _ d ((DataReg.isWritten_iff d).mpr h)

/-- The bytes of a word put together from four. -/
theorem extractLsb'_bytes (b3 b2 b1 b0 : Byte) :
    (b3 ++ b2 ++ b1 ++ b0).extractLsb' 0 8 = b0 ∧ (b3 ++ b2 ++ b1 ++ b0).extractLsb' 8 8 = b1 ∧
    (b3 ++ b2 ++ b1 ++ b0).extractLsb' 16 8 = b2 ∧ (b3 ++ b2 ++ b1 ++ b0).extractLsb' 24 8 = b3 := by
  refine ⟨?_, ?_, ?_, ?_⟩ <;> ext j hj <;>
    simp only [BitVec.getElem_extractLsb', BitVec.getLsbD_append] <;>
    (repeat rw [if_neg (by omega)]) <;> (try rw [if_pos (by omega)]) <;>
    rw [← BitVec.getLsbD_eq_getElem] <;> congr 1 <;> omega

/-- A lane that is written shows its byte, whatever the other lanes are (R21). -/
theorem DataReg.wordShown_lane (u e o : Nat) (d : DataReg) {lane : Nat} (hl : lane < 4)
    (h : d.written.getLsbD lane = true) :
    (d.wordShown u e o).extractLsb' (8 * lane) 8 = d.value.extractLsb' (8 * lane) 8 := by
  simp only [DataReg.wordShown]
  split
  · rfl
  · have bytes := extractLsb'_bytes (d.byteShown u e o 3) (d.byteShown u e o 2) (d.byteShown u e o 1)
      (d.byteShown u e o 0)
    have own : d.byteShown u e o lane = d.value.extractLsb' (8 * lane) 8 := by simp [DataReg.byteShown, h]
    rw [← own]
    match lane, hl with
    | 0, _ => exact bytes.1
    | 1, _ => exact bytes.2.1
    | 2, _ => exact bytes.2.2.1
    | 3, _ => exact bytes.2.2.2

/-- A host read and a command read the same words: those of `shown` (R14 to R17). -/
theorem readWord_dataReg (s : State) {n : RegName} {d : DataReg} (h : s.dataReg n = some d) :
    readWord s n = s.shown n d := by
  cases n <;> simp_all [State.dataReg, readWord]

/-- The block operand of two written halves (R15). -/
theorem readBlock_of_written (s : State) (h1 : s.inBlockHi.written = 0xF#4) (h2 : s.inBlockLo.written = 0xF#4) :
    readBlock s = s.inBlockHi.value ++ s.inBlockLo.value := by
  simp [readBlock, s.shown_of_written _ h1, s.shown_of_written _ h2]

/-- Geometry: `positionOf` and `pixelAt` undo each other (R32). -/
theorem pixelAt_positionOf (i : Fin 16) : pixelAt (positionOf i) = i := by revert i; decide
theorem positionOf_pixelAt (j : Fin 16) : positionOf (pixelAt j) = j := by revert j; decide

/-- Each subblock holds exactly 8 pixels (R33). -/
theorem members_length (flip : Bool) (sub : Sub) : (members flip sub).length = 8 := by
  cases flip <;> cases sub <;> decide

theorem members_nodup (flip : Bool) (sub : Sub) : (members flip sub).Nodup := by
  cases flip <;> cases sub <;> decide

theorem mem_members (flip : Bool) (sub : Sub) (i : Fin 16) : i ∈ members flip sub ↔ subOf flip i = sub := by
  simp [members, mem_pixelNumbers]

theorem subPixels_length (d : Tile) (flip : Bool) (sub : Sub) : (subPixels d flip sub).length = 8 := by
  simp [subPixels, members_length]

end Sys2Proof.Machine
end

