-- ==== Sys2Proof/Laws/Codec.lean ====
section
/-!
SUPPORT. Bit-level lemmas of the packer and unpacker, the ranges of codes, and the search's one
equation.
-/

namespace Sys2Proof.Machine

/-- Bit j of `bitsOf f n` is `f j` (R103). -/
theorem bitsOf_getLsbD (f : Nat → Bool) (n j : Nat) : (bitsOf f n).getLsbD j = (decide (j < n) && f j) := by
  induction n with
  | zero => simp [bitsOf]
  | succ n ih =>
    simp only [bitsOf, BitVec.getLsbD_cons, ih]
    by_cases h : j = n
    · subst h; simp
    · simp only [h, if_false]
      by_cases hl : j < n
      · simp [hl, Nat.lt_succ_of_lt hl]
      · have : ¬ j < n + 1 := by omega
        simp [hl, this]

/-- The codes of a mode are exactly 0 and `codesAbove0` (R51). -/
theorem mem_codes (m : Mode) (c : Int) : c ∈ (0 : Int) :: codesAbove0 m ↔ 0 ≤ c ∧ c ≤ maxCode m := by
  simp only [codesAbove0, List.mem_cons, List.mem_map, List.mem_range]
  constructor
  · rintro (rfl | ⟨n, hn, rfl⟩)
    · simp
    · omega
  · rintro ⟨h0, h1⟩
    by_cases hc : c = 0
    · exact .inl hc
    · exact .inr ⟨(c - 1).toNat, by omega, by omega⟩

/-- The quantizer answers a code the mode has (R51). -/
theorem quantize_range (total : Int) (m : Mode) : 0 ≤ quantize total m ∧ quantize total m ≤ maxCode m :=
  (mem_codes m _).mp (argmin_mem _ _ _)

theorem codeInRange_iff (m : Mode) (c : Int) : codeInRange m c = true ↔ 0 ≤ c ∧ c ≤ maxCode m := by
  simp [codeInRange]

theorem quantizeRgb_inRange (sums : Rgb) (m : Mode) : rgbInRange m (quantizeRgb sums m) = true := by
  simp only [rgbInRange, quantizeRgb, Bool.and_eq_true, codeInRange_iff]
  exact ⟨⟨quantize_range _ _, quantize_range _ _⟩, quantize_range _ _⟩

/-- Every candidate is a code triple the mode has (R56). -/
theorem candidates_inRange {q : Quality} {m : Mode} {c x : Rgb} (hc : rgbInRange m c = true)
    (hx : x ∈ candidates q m c) : rgbInRange m x = true := by
  simp only [candidates, List.mem_cons] at hx
  rcases hx with rfl | hx
  · exact hc
  · cases q with
    | high => exact (List.mem_filter.mp hx).2
    | _ => simp [neighbours] at hx

@[simp] theorem select_code (tables : ModTable) (pixels : List Rgb) (m : Mode) (code : Rgb) :
    (select tables pixels m code).code = code := rfl

@[simp] theorem select_ks_length (tables : ModTable) (pixels : List Rgb) (m : Mode) (code : Rgb) :
    (select tables pixels m code).ks.length = pixels.length := by
  simp [select]

/-- R77: (IND, 0) is always representable, so the search answers a first minimum. -/
theorem search_eq_firstMin (tables : ModTable) (d : Tile) (q : Quality) :
    firstMin Configuration.total ((combos q).filterMap (evaluate tables d q)) = some (search tables d q) := by
  unfold search
  split <;> rename_i h
  · exact h
  · rw [firstMin_eq_none] at h
    have hmem : (Mode.ind, false) ∈ combos q := by cases q <;> simp [combos]
    have := List.filterMap_eq_nil_iff.mp h _ hmem
    simp [evaluate] at this

end Sys2Proof.Machine
end

