-- ==== Sys2Proof/Laws/PerInstr.lean ====
section
/-!
SUPPORT. Statements about every instruction as syntax, one lemma per constructor. Family EncodedLength:
a command word has 4 bytes and a block 8 (R30, R31, R37: one fixed length each).
-/

namespace Sys2Proof.Laws.EncodedLength

/-- The bytes of the encoding. -/
def byteLength : Instr → Nat
  | .init => 4
  | .compress _ _ => 4
  | .decompress _ => 4
  | .etc1Individual _ => 8
  | .etc1Diff _ => 8

def Statement (i : Instr) : Prop := (encode i).length = byteLength i

theorem init : Statement .init := rfl
theorem compress (quality : BitVec 2) (dither : Bool) : Statement (.compress quality dither) := rfl
theorem decompress (preserveAlpha : Bool) : Statement (.decompress preserveAlpha) := rfl
theorem etc1Individual (b : IndBlock) : Statement (.etc1Individual b) := rfl
theorem etc1Diff (b : DiffBlock) : Statement (.etc1Diff b) := rfl

end Sys2Proof.Laws.EncodedLength
end

