-- ==== Sys2Proof/Laws/Step.lean ====
section
/-!
SUPPORT. What an instruction, an event and a step can do, said once: each inversion lemma lists every
way to answer a next state. Invariants and whole-machine rules are derived from these.
-/

namespace Sys2Proof.Machine

/-- A block that answers a next state writes R, G and B of OUT_PIX and nothing else (R108). -/
theorem runBlock_next {blk : Block} {s t : State} (h : runBlock blk s = .next t) :
    ∃ pixels : Tile, t = s.writeOutRgb pixels := by
  simp only [runBlock, execEtc1Diff, execEtc1Individual] at h
  split at h
  · split at h
    · cases h
    · cases h; exact ⟨_, rfl⟩
  · cases h; exact ⟨_, rfl⟩

/-- Every way a COMPRESS answers a next state (R70, R122). -/
theorem execCompress_next {q : BitVec 2} {d : Bool} {s t : State} (h : execCompress q d s = .next t) :
    (s.status.initDone = false ∧ t = s.raiseError .notInitialized) ∨
    (s.status.initDone = true ∧ ∃ blk, t = (s.writeOutBlock blk).commandDone) := by
  simp only [execCompress] at h
  split at h <;> rename_i hi
  · cases h; exact .inl ⟨hi, rfl⟩
  · have hi : s.status.initDone = true := by simpa using hi
    cases h; exact .inr ⟨hi, _, rfl⟩

/-- Every way a DECOMPRESS answers a next state (R108, R122). -/
theorem execDecompress_next {a : Bool} {s t : State} (h : execDecompress a s = .next t) :
    (s.status.initDone = false ∧ t = s.raiseError .notInitialized) ∨
    (s.status.initDone = true ∧ ∃ pixels, t = finishDecompress a (s.writeOutRgb pixels)) := by
  simp only [execDecompress] at h
  split at h <;> rename_i hi
  · cases h; exact .inl ⟨hi, rfl⟩
  · have hi : s.status.initDone = true := by simpa using hi
    split at h
    · rename_i u hu
      obtain ⟨pixels, rfl⟩ := runBlock_next hu
      cases h; exact .inr ⟨hi, pixels, rfl⟩
    · cases h
    · cases h

/-- A decoded command word is one of the three commands, never a block (R30). -/
theorem decodeCommand_ok {w : Word} {i : Instr} (h : decodeCommand w = .ok i) :
    i = .init ∨ (∃ q d, i = .compress q d) ∨ ∃ a, i = .decompress a := by
  simp only [decodeCommand] at h
  split at h
  · cases h; exact .inl rfl
  · split at h
    · cases h; exact .inr (.inl ⟨_, _, rfl⟩)
    · split at h
      · cases h; exact .inr (.inr ⟨_, rfl⟩)
      · cases h

/-- Every way a write to CMD answers a next state (R121). -/
theorem runCommand_next {w : Word} {s t : State} (h : runCommand w s = .next t) :
    ((∃ r, decodeCommand w = .error r) ∧ t = s.raiseError .illegalCommand) ∨
    (decodeCommand w = .ok .init ∧ t = s.markInitDone.commandDone) ∨
    ((∃ i, decodeCommand w = .ok i ∧ i ≠ .init) ∧ s.status.initDone = false ∧
      t = s.raiseError .notInitialized) ∨
    ((∃ q d, decodeCommand w = .ok (.compress q d)) ∧ s.status.initDone = true ∧
      ∃ blk, t = (s.writeOutBlock blk).commandDone) ∨
    (∃ a, decodeCommand w = .ok (.decompress a) ∧ s.status.initDone = true ∧
      ∃ pixels, t = finishDecompress a (s.writeOutRgb pixels)) := by
  simp only [runCommand] at h
  split at h <;> rename_i i hd
  · rcases decodeCommand_ok hd with rfl | ⟨q, d, rfl⟩ | ⟨a, rfl⟩
    · cases h; exact .inr (.inl ⟨hd, rfl⟩)
    · rcases execCompress_next h with ⟨hi, rfl⟩ | ⟨hi, blk, rfl⟩
      · exact .inr (.inr (.inl ⟨⟨_, hd, by simp⟩, hi, rfl⟩))
      · exact .inr (.inr (.inr (.inl ⟨⟨q, d, hd⟩, hi, blk, rfl⟩)))
    · rcases execDecompress_next h with ⟨hi, rfl⟩ | ⟨hi, pixels, rfl⟩
      · exact .inr (.inr (.inl ⟨⟨_, hd, by simp⟩, hi, rfl⟩))
      · exact .inr (.inr (.inr (.inr ⟨a, hd, hi, pixels, rfl⟩)))
  · cases h; exact .inl ⟨⟨_, hd⟩, rfl⟩

/-- Every way an event answers a next state (R24 to R27, R140). -/
theorem performEvent_next {e : HostEvent} {s t : State} (h : performEvent e s = .next t) :
    (e = .reset ∧ t = s.platformReset) ∨
    (∃ n, e = .read (regOffset n) 4 ∧ t = { s with hostData := some (readWord s n) }) ∨
    (∃ n v, e = .write (regOffset n) 4 v ∧ n ≠ .cmd ∧ t = { s with hostData := none }.storeReg n v) ∨
    (∃ v, e = .write 0 4 v ∧ runCommand v { s with hostData := none } = .next t) ∨
    (s.params.illegalAccess = .goOn ∧
      ((∃ off width, e = .read off width ∧ accessedReg off width = none ∧
        t = { s with
          hostData := some (Config.unspecifiedResponse s.params.unitId s.draws)
          draws := s.draws + 1 }) ∨
      ∃ off width v, e = .write off width v ∧ accessedReg off width = none ∧
        t = { s with hostData := none })) := by
  have accessed : ∀ {off width n}, accessedReg off width = some n → off = regOffset n ∧ width = 4 := by
    intro off width n ha
    simp only [accessedReg] at ha
    split at ha
    · exact ⟨(regOffset_of_regAt ha).symm, by assumption⟩
    · cases ha
  cases e with
  | reset => cases h; exact .inl ⟨rfl, rfl⟩
  | read off width =>
    simp only [performEvent, hostRead] at h
    split at h
    · rename_i ha
      simp only [illegalRead] at h
      split at h
      · cases h
      · rename_i hp
        cases h; exact .inr (.inr (.inr (.inr ⟨hp, .inl ⟨_, _, rfl, ha, rfl⟩⟩)))
    · rename_i n ha
      obtain ⟨rfl, rfl⟩ := accessed ha
      cases h; exact .inr (.inl ⟨n, rfl, rfl⟩)
  | write off width v =>
    simp only [performEvent, hostWrite] at h
    split at h
    · rename_i ha
      simp only [illegalWrite] at h
      split at h
      · cases h
      · rename_i hp
        cases h; exact .inr (.inr (.inr (.inr ⟨hp, .inr ⟨_, _, _, rfl, ha, rfl⟩⟩)))
    · rename_i ha
      obtain ⟨rfl, rfl⟩ := accessed ha
      exact .inr (.inr (.inr (.inl ⟨v, rfl, h⟩)))
    · rename_i n hn ha
      obtain ⟨rfl, rfl⟩ := accessed ha
      cases h; exact .inr (.inr (.inl ⟨n, v, rfl, fun hc => hn (hc ▸ rfl), rfl⟩))

/-- A step is the next pending event on the state without it, or nothing at all (R28, R135). -/
theorem step_next {s t : State} (h : step s = .next t) :
    (s.queue = [] ∧ t = s) ∨
    ∃ e rest, s.queue = e :: rest ∧ performEvent e { s with queue := rest } = .next t := by
  simp only [step] at h
  split at h <;> rename_i hq
  · cases h; exact .inl ⟨hq, rfl⟩
  · exact .inr ⟨_, _, hq, h⟩

end Sys2Proof.Machine
end

