-- ==== Sys2Proof/Tests/Slice0.lean ====
section
/-!
SUPPORT. The model's own tests. Expected values are the spec's: the vectors of spec/95 (named V-…) and
the examples inside the rules. The last part shows, for each statement with hypotheses, concrete
inputs that meet them.
-/

namespace Sys2Proof.Tests

open Sys2Proof Sys2Proof.Machine

/-- The next state of an outcome, if it is one. -/
def next? (o : Host.Outcome State Fault Refusal) : Option State :=
  match o with
  | .next t => some t
  | _ => none

/-- The fault of an outcome, if it is one. -/
def fault? (o : Host.Outcome State Fault Refusal) : Option Fault :=
  match o with
  | .fault r => some r
  | _ => none

/-- Where an event ends when R21 and R127 are read strictly. -/
def strictFault? (e : HostEvent) (s : State) : Option ModelFault :=
  match strictEvent e s with
  | .fault r => some r
  | _ => none

/-- STATUS after an event. -/
def statusAfter (e : HostEvent) (s : State) : Option Word := (next? (performEvent e s)).map fun t => t.status.word

/-- After reset and INIT. -/
def afterInit : State := { State.reset with status := { Status.reset with initDone := true } }

/-- After INIT with one colour in all of IN_PIX. -/
def flatInput (w : Word) : State := { afterInit with inPix := Vector.replicate 16 (DataReg.store w) }

/-- After INIT with IN_PIX words by row-major number. -/
def inputOf (f : Nat → Word) : State :=
  { afterInit with inPix := Vector.ofFn fun i : Fin 16 => DataReg.store (f i.val) }

/-- After INIT with a block in IN_BLOCK. -/
def blockInput (hi lo : Word) : State :=
  { afterInit with inBlockHi := DataReg.store hi, inBlockLo := DataReg.store lo }

/-- The state with another DIFF_OVERFLOW. -/
def withParams (d : DiffOverflow) (s : State) : State := { s with params := { s.params with diffOverflow := d } }

/-- The state with the alternative treatment of illegal accesses. -/
def goesOn (s : State) : State := { s with params := { s.params with illegalAccess := .goOn } }

/-- OUT_BLOCK after an instruction. -/
def outBlock (i : Instr) (s : State) : Option Block :=
  (next? (exec i s)).map fun t => t.outBlockHi.value ++ t.outBlockLo.value

/-- OUT_PIX[i] after an instruction. -/
def outPixel (i : Instr) (s : State) (p : Fin 16) : Option DataReg := (next? (exec i s)).map fun t => t.outPix[p]

/-- A tile by row-major number. -/
def tileOf (f : Nat → Rgb) : Tile := Vector.ofFn fun i : Fin 16 => f i.val

/-! ### Well-formedness -/

def sampleDiff (dr dg db : Int) : Instr := .etc1Diff {
  r1 := 16#5, dr := dr, g1 := 0#5, dg := dg, b1 := 0#5, db := db
  table1 := 0#3, table2 := 0#3, flip := false, idxMsb := 0#16, idxLsb := 0#16 }

theorem test_wf_accepts_delta_bounds : (sampleDiff (-4) 3 0).wf = true := by decide
theorem test_wf_refuses_red_delta : (sampleDiff 4 0 0).wf = false := by decide
theorem test_wf_refuses_green_delta : (sampleDiff 0 (-5) 0).wf = false := by decide
theorem test_wf_refuses_blue_delta : (sampleDiff 0 0 4).wf = false := by decide

/-! ### Decoding: words written out bit by bit from R30 and R31 -/

theorem test_decode_init : decodeCommand 0b00000000000000000000000000000001#32 = .ok .init := by rfl
/-- QUALITY = 01 [5:4], DITHER = 1 [6], OP = 0010. -/
theorem test_decode_compress : decodeCommand 0b00000000000000000000000001010010#32 = .ok (.compress 1#2 true) := by rfl
/-- PRESERVE_ALPHA = 1 [7], OP = 0011. -/
theorem test_decode_decompress : decodeCommand 0b00000000000000000000000010000011#32 = .ok (.decompress true) := by rfl
/-- V-ERR-5: COMPRESS with bit 7 set. -/
theorem test_decode_rejects_by_name : decodeCommand 0x00000082#32 = .error (.illegalCommand 0x00000082#32) := by rfl
theorem test_decode_rejects_length : decode [0#8, 0#8, 0#8] = .error (.badLength 3) := by rfl
/-- V-DEC-8's block, R1 0111 R2 1111, flip 1, as bytes b0..b7. -/
theorem test_decode_individual :
    decode [0b01111111#8, 0#8, 0#8, 0b00000001#8, 0#8, 0#8, 0#8, 0#8] = .ok (.etc1Individual {
      r1 := 7#4, r2 := 15#4, g1 := 0#4, g2 := 0#4, b1 := 0#4, b2 := 0#4
      table1 := 0#3, table2 := 0#3, flip := true, idxMsb := 0#16, idxLsb := 0#16 }) := by decide
/-- V-PACK-5: deltas 111 111 000, tables 000 011, diff 1, flip 1. -/
theorem test_decode_diff :
    decode [0b01000111#8, 0b01111111#8, 0b11101000#8, 0b00001111#8, 0x01#8, 0x10#8, 0x33#8, 0x33#8] =
      .ok (.etc1Diff {
        r1 := 8#5, dr := -1, g1 := 15#5, dg := -1, b1 := 29#5, db := 0
        table1 := 0#3, table2 := 3#3, flip := true, idxMsb := 0x0110#16, idxLsb := 0x3333#16 }) := by decide
/-- V-DEC-6: dR = 100 is -4. -/
theorem test_decode_negative_delta :
    (diffFields 0x8400000200000000#64).dr = -4 ∧ (diffFields 0x8400000200000000#64).r1 = 16#5 := by decide
/-- The opcode table's numbering gives the same words. -/
theorem test_table_words :
    decodeTableWord 32 0x00000032 = some (.compress 3#2 false) ∧
    decodeTableWord 64 0x8400000200000000 = some (sampleDiff (-4) 0 0) := by decide
/-- R39: `rgba(19, 19, 19, 255)` and the pseudo-instructions of P1 and P3. -/
theorem test_host_program :
    rgba 19#8 19#8 19#8 255#8 = 0xFF131313#32 ∧
    hostProgram [.wr (.inPix 15) 0xFF131313#32, .init, .compress 1#2 false, .decompress true, .rd .outBlockHi] =
      [.write 0x04C 4 0xFF131313#32, .write 0x000 4 0x00000001#32, .write 0x000 4 0x00000012#32,
       .write 0x000 4 0x00000083#32, .read 0x058 4] := by decide

/-! ### INIT and errors -/

/-- V-INIT-1, V-INIT-3. -/
theorem test_init_status :
    statusAfter (.write 0 4 0x00000001#32) State.reset = some 0x00000001#32 ∧
    statusAfter (.write 0 4 0x00000011#32) State.reset = some 0x00000012#32 := by decide
/-- V-INIT-4, V-INIT-5: LAST_ERR cleared, ERR_STICKY and VALID kept. -/
theorem test_init_keeps_sticky_and_valid :
    statusAfter (.write 0 4 1#32)
      { State.reset with status := ⟨false, true, .notInitialized, false⟩ } = some 0x00000003#32 ∧
    statusAfter (.write 0 4 1#32)
      { State.reset with status := ⟨true, false, .none, true⟩ } = some 0x00000101#32 := by decide
/-- V-ERR-1, V-ERR-9, V-ERR-11. -/
theorem test_error_status :
    statusAfter (.write 0 4 0x00000002#32) State.reset = some 0x00000022#32 ∧
    statusAfter (.write 0 4 0x00000082#32) State.reset = some 0x00000012#32 ∧
    statusAfter (.write 0 4 0x00000000#32)
      { State.reset with status := ⟨true, false, .none, true⟩ } = some 0x00000113#32 := by decide

/-! ### Bus (V-BUS) -/

theorem test_bus_faults :
    fault? (performEvent (.read 0x008 4) State.reset) = some .busFault ∧
    fault? (performEvent (.write 0x0A0 4 0#32) State.reset) = some .busFault ∧
    fault? (performEvent (.write 0x012 4 0#32) State.reset) = some .busFault ∧
    fault? (performEvent (.read 0x010 2) State.reset) = some .busFault ∧
    strictFault? (.read 0x010 4) State.reset = some .unwrittenRead := by decide
/-- U2 of spec/93: with the alternative treatment the same accesses go on and change no register. -/
theorem test_illegal_accesses_go_on :
    ((next? (performEvent (.read 0x008 4) (goesOn State.reset))).map State.inPix) = some State.reset.inPix ∧
    next? (performEvent (.write 0x010 2 5#32) (goesOn State.reset)) = some (goesOn State.reset) := by decide
/-- V-BUS-7, V-BUS-9. -/
theorem test_bus_reads :
    (next? (performEvent (.read 0x000 4) State.reset)).bind State.hostData = some 0x00000000#32 ∧
    ((next? (performEvent (.write 0x010 4 0x01020304#32) State.reset)).map fun t =>
      readWord t (.inPix 0)) = some 0x01020304#32 := by decide
theorem test_bus_last_registers :
    regAt 0x04C = some (.inPix 15) ∧ regAt 0x05C = some .outBlockLo ∧ regAt 0x09C = some (.outPix 15) ∧
    regAt 0x0FC = none := by decide

/-! ### Stages of COMPRESS -/

/-- V-QUANT-1 to V-QUANT-8. -/
theorem test_quantize :
    quantize 68 .ind = 0 ∧ quantize 69 .ind = 1 ∧ quantize 32 .dif = 0 ∧ quantize 33 .dif = 1 ∧
    quantize 1024 .dif = 16 ∧ quantize 2040 .dif = 31 ∧ quantize (-5) .ind = 0 := by decide +kernel
/-- V-QUANT-11, the example of R56. -/
theorem test_candidates :
    candidates .high .ind ⟨0, 15, 7⟩ =
      [⟨0, 15, 7⟩, ⟨0, 14, 6⟩, ⟨0, 14, 7⟩, ⟨0, 14, 8⟩, ⟨0, 15, 6⟩, ⟨0, 15, 8⟩, ⟨1, 14, 6⟩, ⟨1, 14, 7⟩,
       ⟨1, 14, 8⟩, ⟨1, 15, 6⟩, ⟨1, 15, 7⟩, ⟨1, 15, 8⟩] := by decide +kernel
/-- V-SEL-2: 4 × 10 and 4 × 30 against base 17. -/
theorem test_select :
    select modConstants (List.replicate 4 ⟨10, 10, 10⟩ ++ List.replicate 4 ⟨30, 30, 30⟩) .ind ⟨1, 1, 1⟩ =
      { code := ⟨1, 1, 1⟩, table := 1#3, ks := [2#2, 2#2, 2#2, 2#2, 1#2, 1#2, 1#2, 1#2], err := 240 } := by
  decide +kernel
/-- V-DITH-4: the last pixel's red goes to 107, all else to 99. -/
theorem test_dither :
    dither (tileOf fun i => if i = 15 then ⟨101, 100, 100⟩ else ⟨100, 100, 100⟩) =
      tileOf fun i => if i = 15 then ⟨107, 99, 99⟩ else ⟨99, 99, 99⟩ := by decide +kernel
/-- V-PACK-5. -/
theorem test_pack :
    pack { mode := .dif, flip := true
           sub1 := { code := ⟨8, 15, 29⟩, table := 0#3, ks := [1#2, 3#2, 3#2, 1#2, 1#2, 1#2, 1#2, 1#2], err := 0 }
           sub2 := { code := ⟨7, 14, 29⟩, table := 3#3, ks := List.replicate 8 0#2, err := 0 } } =
      0x477FE80F01103333#64 := by decide +kernel

/-! ### COMPRESS -/

/-- V-SRCH-5 at medium: differential mode at delta +3 wins the tie. -/
theorem test_compress_medium :
    outBlock (.compress 1#2 false) (inputOf fun i => if i % 4 < 2 then 0xFF545454#32 else 0xFF6D6D6D#32) =
      some 0x5353530200000000#64 := by decide +kernel
/-- The refinement example of R78 (V-SRCH-7): codes (7, 14, 30) become (7, 14, 29), total 3042 becomes 3018. -/
theorem test_refine :
    let d := tileOf fun i => if i = 1 ∨ i = 2 then ⟨74, 122, 200⟩ else ⟨69, 127, 253⟩
    let best : Configuration := {
      mode := .dif, flip := true
      sub1 := select modConstants (subPixels d true .one) .dif ⟨8, 15, 29⟩
      sub2 := select modConstants (subPixels d true .two) .dif ⟨7, 14, 30⟩ }
    best.total = 3042 ∧ (refine modConstants d best).total = 3018 ∧
    (refine modConstants d best).sub1.code = ⟨8, 15, 29⟩ ∧
    (refine modConstants d best).sub2.code = ⟨7, 14, 29⟩ := by decide +kernel
/-- V-BUS-10 and V-DEC-21 read strictly: one IN_PIX word, or IN_BLOCK_LO, unwritten. -/
theorem test_strict_unwritten_input :
    strictFault? (.write 0 4 0x00000002#32) { flatInput 0#32 with
      inPix := (flatInput 0#32).inPix.set 15 DataReg.unwritten } = some .unwrittenInput ∧
    strictFault? (.write 0 4 0x00000003#32) { afterInit with inBlockHi := DataReg.store 0#32 } =
      some .unwrittenInput ∧
    strictFault? (.write 0 4 0x00000002#32) State.reset = none := by decide
/-- U3 of spec/93: right after reset every register reads, and after INIT both commands complete. -/
theorem test_runs_from_reset (n : RegName) (q : BitVec 2) (d a : Bool) :
    acceptsEvent State.reset (.read (regOffset n) 4) = true ∧ acceptsInstr afterInit (.compress q d) = true ∧
    acceptsInstr afterInit (.decompress a) = true := by
  refine ⟨by simp [acceptsEvent, accessedReg, regAt_regOffset], rfl, ?_⟩
  have clamps : ∀ b : DiffBlock, (unpackDiff .clamp b).isSome = true := by
    intro b
    by_cases h : rgbInRange .dif (diffCode2raw b) = true <;> simp [unpackDiff, diffCode2, h]
  simp [acceptsInstr, show afterInit.params.diffOverflow = .clamp from rfl, clamps]

/-- V-DEC-18 and V-DEC-20: A forced to 255, or left unwritten. -/
theorem test_decompress_alpha :
    outPixel (.decompress false) (blockInput 0x8844CC24#32 0xFFFF0000#32) 7 = some ⟨0xFFC73F83#32, 0xF#4⟩ ∧
    outPixel (.decompress true) (blockInput 0x8844CC24#32 0xFFFF0000#32) 7 = some ⟨0x00C73F83#32, 0x7#4⟩ := by
  decide +kernel
/-- V-DEC-2, V-DEC-9: table 7 with k = 3 in both halves; a clamped second code. -/
theorem test_decompress_diff :
    outPixel (.decompress false) (blockInput 0xFFFFFFFF#32 0xFFFFFFFF#32) 15 = some ⟨0xFF404040#32, 0xF#4⟩ ∧
    outPixel (.decompress false) (blockInput 0xFB000002#32 0x00000000#32) 3 = some ⟨0xFF0202FF#32, 0xF#4⟩ := by
  decide +kernel
/-- V-DEC-14: bit 4 is j = 4, the pixel at x = 1, y = 0. -/
theorem test_individual_index_is_column_major :
    outPixel (.etc1Individual (indFields 0x8888880000000010#64)) State.reset 1 = some ⟨0x00909090#32, 0x7#4⟩ ∧
    outPixel (.etc1Individual (indFields 0x8888880000000010#64)) State.reset 4 = some ⟨0x008A8A8A#32, 0x7#4⟩ := by
  decide +kernel
/-- V-DEC-11 in range under both parameters; V-DEC-10 out of range. -/
theorem test_diff_overflow :
    outPixel (.etc1Diff (diffFields 0x2400000200000000#64)) (withParams .fault State.reset) 0 =
      some ⟨0x00020223#32, 0x7#4⟩ ∧
    outPixel (.etc1Diff (diffFields 0x0400000200000000#64)) State.reset 3 = some ⟨0x00020202#32, 0x7#4⟩ ∧
    fault? (exec (.etc1Diff (diffFields 0x0400000200000000#64)) (withParams .fault State.reset)) =
      some .diffOverflow := by
  decide +kernel

/-! ### Steps -/

theorem test_fetch_word_runs_command :
    (next? (step (State.reset.withFetchWord 32 0x00000001))).map (fun t => t.status.word) = some 0x00000001#32 := by
  decide
/-- V-DEC-1 through the fetch of a block. -/
theorem test_fetch_word_runs_block :
    (next? (step (State.reset.withFetchWord 64 0))).map (fun t => t.outPix[(0 : Fin 16)]) =
      some ⟨0x00020202#32, 0x7#4⟩ := by decide +kernel
theorem test_step_idle : step State.reset = .next State.reset := rfl

/-! ### Witnesses: inputs that meet the hypotheses of each statement -/

theorem witness_StepKeepsRegisterInvariant :
    State.Inv { State.reset with queue := [.write 0 4 1#32] } ∧
    ∃ t, step { State.reset with queue := [.write 0 4 1#32] } = .next t := by
  refine ⟨?_, _, rfl⟩
  constructor <;>
    simp [State.reset, Status.reset, DataReg.wholeWord, DataReg.pixelWord, DataReg.unwritten, DataReg.isWritten]

theorem witness_DecodeEncodeAgree :
    (sampleDiff (-4) 3 0).wf = true ∧ (Instr.compress 3#2 true).wf = true := by decide

theorem witness_EncodeDecodedBytesAgree :
    decode [0x83#8, 0#8, 0#8, 0#8] = .ok (.decompress true) ∧
    decode [0x84#8, 0#8, 0#8, 2#8, 0#8, 0#8, 0#8, 0#8] = .ok (sampleDiff (-4) 0 0) := by decide

theorem witness_LegalCommandWordsExactly : ∀ i, decodeCommand 0x00000082#32 ≠ .ok i := by
  intro i h
  cases (show decodeCommand 0x00000082#32 = .error (.illegalCommand 0x00000082#32) from rfl).symm.trans h

theorem witness_BlockFieldPositions :
    (0xFFFFFFFDFFFFFFFF#64 : Block).getLsbD 33 = false ∧ (0xFFFFFFFFFFFFFFFF#64 : Block).getLsbD 33 = true := by
  decide

/-- A reset, an INIT, a failing command, a succeeding DECOMPRESS and a plain write. -/
theorem witness_status_rules :
    (∃ t, performEvent .reset afterInit = .next t) ∧
    (∃ t, performEvent (.write 0 4 1#32) State.reset = .next t) ∧
    (∃ t, performEvent (.write 0 4 0x82#32) afterInit = .next t) ∧
    (∃ t, performEvent (.write 0 4 2#32) State.reset = .next t) ∧
    (∃ t, performEvent (.write 0 4 3#32) (blockInput 0#32 0#32) = .next t) ∧
    ∃ t, performEvent (.write 0x010 4 0#32) State.reset = .next t :=
  ⟨⟨_, rfl⟩, ⟨_, rfl⟩, ⟨_, rfl⟩, ⟨_, rfl⟩, ⟨_, rfl⟩, ⟨_, rfl⟩⟩

theorem witness_LastErrDescribesLastCommand :
    (∃ i, decodeCommand 2#32 = .ok i ∧ i ≠ .init) ∧ State.reset.status.initDone = false ∧
    decodeCommand 1#32 = .ok .init ∧ afterInit.status.initDone = true ∧
    (∀ w, (HostEvent.read 4 4) ≠ .write 0 4 w) ∧ HostEvent.read 4 4 ≠ .reset :=
  ⟨⟨_, rfl, by decide⟩, rfl, rfl, rfl, by simp, by simp⟩

theorem witness_ReadAfterWriteGivesWord :
    (∃ t, performEvent (.write (regOffset (.outPix 15)) 4 7#32) State.reset = .next t) ∧
    RegName.outPix 14 ≠ RegName.outPix 15 :=
  ⟨⟨_, rfl⟩, by decide⟩

/-- The last offset of the space, unmapped. -/
theorem witness_IllegalAccessesAreBusFaults :
    State.reset.params.illegalAccess = .fault ∧ 0x0FF < 0x100 ∧
    fault? (performEvent (.read 0x0FC 4) State.reset) = some .busFault := by decide

/-- The first unmapped offset after OUT_PIX, and the first past the space. -/
theorem witness_IllegalAccessesMayGoOn :
    (goesOn State.reset).params.illegalAccess = .goOn ∧ 0x0A0 ≤ 0x0A0 ∧
    State.reset.params.illegalAccess = .fault ∧
    fault? (performEvent (.read 0x100 4) State.reset) = some .busFault := by decide

theorem witness_ReadsHaveNoSideEffects :
    ∃ t, performEvent (.read (regOffset (.inPix 15)) 4) (flatInput 7#32) = .next t := ⟨_, rfl⟩

theorem witness_UnwrittenReadFaults :
    State.reset.dataReg .outBlockLo = some DataReg.unwritten ∧ DataReg.unwritten.written ≠ 0xF#4 ∧
    (blockInput 5#32 6#32).dataReg .inBlockLo = some (DataReg.store 6#32) ∧
    (DataReg.store 6#32).written = 0xF#4 := by decide

theorem witness_AnyValueReadsKeepWrittenBytes :
    State.reset.dataReg (.inPix 0) = some DataReg.unwritten ∧ (DataReg.store 6#32).written.getLsbD 3 = true := by
  decide

/-- Nothing in R127's table about a legal read of STATUS. -/
theorem witness_AcceptedEventsAreExactlyTheNextOnes : modelFault State.reset (.read 0x004 4) = none := by decide

theorem witness_LegalAccessesNeverStopTheUnit :
    ∀ e ∈ [HostEvent.reset, .read 0x09C 4, .write 0x000 4 0xFFFFFFFF#32, .write 0x05C 4 0#32],
      match e with
      | .reset => True
      | .read off width => accessedReg off width ≠ none
      | .write off width _ => accessedReg off width ≠ none := by
  simp only [List.mem_cons, List.not_mem_nil, or_false, forall_eq_or_imp, forall_eq, true_and]
  decide

theorem witness_ErrorsChangeOnlyStatus :
    (¬((0x102#32 : Word).extractLsb' 0 4 = 2#4 ∧ (0x102#32 : Word).extractLsb' 7 25 = 0#25)) ∧
    ((0x72#32 : Word).extractLsb' 0 4 = 2#4 ∧ (0x72#32 : Word).extractLsb' 7 25 = 0#25) ∧
    ((0x83#32 : Word).extractLsb' 0 4 = 3#4 ∧ (0x83#32 : Word).extractLsb' 8 24 = 0#24 ∧
      (0x83#32 : Word).extractLsb' 4 3 = 0#3) := by decide

theorem witness_InitSetsInitDoneOnly :
    (0x80000001#32 : Word).extractLsb' 0 4 = 1#4 ∧ (0x80000001#32 : Word) ≠ 0x00000001#32 := by decide

theorem witness_CandidateListsAreTheNeighbourhood :
    rgbInRange .ind ⟨0, 15, 7⟩ = true ∧ rgbInRange .dif ⟨31, 0, 31⟩ = true := by decide

theorem witness_ranges :
    ∀ i : Fin 16, 0 ≤ (tileOf fun n => ⟨if n = 0 then 255 else 0, 7, 0⟩)[i].r ∧
      (tileOf fun n => ⟨if n = 0 then 255 else 0, 7, 0⟩)[i].r ≤ 255 := by decide

/-- The k of a pixel as a list in row-major order, in the right subblock of flip 0 (R33, R78). -/
theorem witness_ChannelSums :
    let inSub := fun i : Fin 16 => (if false then i.val / 4 < 2 else i.val % 4 < 2) ↔ Sub.two = .one
    ([2#2, 3#2, 2#2, 3#2, 2#2, 3#2, 2#2, 3#2] : List (BitVec 2)) =
      (pixelNumbers.filter fun i => inSub i).map fun i => if i.val % 4 = 2 then 2#2 else 3#2 := by decide

/-- The ends of R44's range: base 0 with -183 and base 255 with +183. -/
theorem witness_ReconstructionClampsEachChannel :
    0 + modEntry modConstants 7#3 3#2 = -183 ∧ 255 + modEntry modConstants 7#3 1#2 = 438 := by decide

/-- Left red, right blue, flip 0: no differential pair (V-SRCH-4); all black: one. -/
theorem witness_CombinationsAreBestOverCandidates :
    evaluateDif modConstants (tileOf fun i => if i % 4 < 2 then ⟨200, 0, 0⟩ else ⟨0, 0, 200⟩) .medium false = none ∧
    (evaluateDif modConstants (tileOf fun _ => ⟨0, 0, 0⟩) .medium false).isSome = true := by decide +kernel

def blackChoice : SubChoice := { code := ⟨0, 0, 0⟩, table := 0#3, ks := List.replicate 8 2#2, err := 0 }

/-- A given pair of codes, and a re-derived one that is representable and strictly better (V-SRCH-7). -/
theorem witness_RefinementNeverMakesWorse :
    (let d := tileOf fun i => if i = 1 ∨ i = 2 then ⟨74, 122, 200⟩ else ⟨69, 127, 253⟩
     let best : Configuration := {
       mode := .dif, flip := true
       sub1 := select modConstants (subPixels d true .one) .dif ⟨8, 15, 29⟩
       sub2 := select modConstants (subPixels d true .two) .dif ⟨7, 14, 30⟩ }
     deltaOk (rederived modConstants d best).sub1.code (rederived modConstants d best).sub2.code = true ∧
     (rederived modConstants d best).total < best.total) ∧
    (let inOne := fun i : Fin 16 => if false then i.val / 4 < 2 else i.val % 4 < 2
     blackChoice.ks = (pixelNumbers.filter fun i => inOne i).map (fun _ => 2#2) ∧
     blackChoice.ks = (pixelNumbers.filter fun i => ¬inOne i).map (fun _ => 2#2)) ∧
    ({ mode := .dif, flip := false, sub1 := blackChoice, sub2 := blackChoice : Configuration }).mode = .dif ∧
    deltaOk blackChoice.code blackChoice.code = true := by decide +kernel

/-- All black at medium: the pair of codes 0 costs 0. -/
theorem witness_DiffModeWinsAtTheBoundary :
    let d := tileOf fun _ => ⟨0, 0, 0⟩
    (⟨0, 0, 0⟩ : Rgb) ∈ candidates .medium .dif (quantizeRgb (channelSums (subPixels d false .one)) .dif) ∧
    (⟨0, 0, 0⟩ : Rgb) ∈ candidates .medium .dif (quantizeRgb (channelSums (subPixels d false .two)) .dif) ∧
    deltaOk ⟨0, 0, 0⟩ ⟨0, 0, 0⟩ = true ∧
    ∀ f : Bool, (select modConstants (subPixels d false .one) .dif ⟨0, 0, 0⟩).err +
      (select modConstants (subPixels d false .two) .dif ⟨0, 0, 0⟩).err ≤
        (evaluateInd modConstants d .medium f).total := by decide +kernel

/-- After INIT with all IN_PIX words written, and with none. -/
theorem witness_CompressWritesOutBlockOnly :
    (flatInput 7#32).status.initDone = true ∧ (flatInput 7#32).inPix[(0 : Fin 16)].written.getLsbD 2 = true ∧
    afterInit.status.initDone = true := by decide

theorem witness_CompressIgnoresAllButColour :
    (∀ i : Fin 16, ((flatInput 0x00C84080#32).inPix[i]).value.extractLsb' 0 24 =
      ((flatInput 0xFFC84080#32).inPix[i]).value.extractLsb' 0 24) ∧
    (∃ t, exec (.compress 0#2 true) (flatInput 0x00C84080#32) = .next t) ∧
    ∃ t, exec (.compress 0#2 true) (flatInput 0xFFC84080#32) = .next t :=
  ⟨by decide, ⟨_, rfl⟩, ⟨_, rfl⟩⟩

theorem witness_UnwrittenInputsStopCommands :
    decodeCommand 0x42#32 = .ok (.compress 0#2 true) ∧ decodeCommand 0x83#32 = .ok (.decompress true) ∧
    afterInit.status.initDone = true ∧ (afterInit.inPix[(15 : Fin 16)]).written ≠ 0xF#4 ∧
    afterInit.inBlockLo.written ≠ 0xF#4 := by decide

/-- V-DITH-1, V-DITH-2 and V-DITH-5. -/
theorem witness_DitherLeavesGridBlocks :
    (∀ i j : Fin 16, (tileOf fun _ => ⟨128, 64, 200⟩)[i] = (tileOf fun _ => ⟨128, 64, 200⟩)[j]) ∧
    (∀ i : Fin 16, (tileOf fun n => if n % 4 < 2 then ⟨17, 34, 51⟩ else ⟨68, 85, 255⟩)[i].r % 17 = 0) ∧
    (∀ i : Fin 16, ∃ x : BitVec 5, (tileOf fun n => if n = 15 then ⟨16, 16, 16⟩ else ⟨8, 8, 8⟩)[i] =
      ⟨expand5 x.toNat, expand5 x.toNat, expand5 x.toNat⟩) := by
  refine ⟨by decide, by decide, fun i => ?_⟩
  by_cases h : i = 15
  · exact ⟨2#5, by subst h; decide⟩
  · exact ⟨1#5, by revert h; revert i; decide⟩

theorem witness_ErrorSharesGoToNeighbours : (List.replicate 16 (0 : Int)).length = 16 := by decide

theorem witness_DitherMovesChannelsAtMostEight :
    isFlat (tileOf fun i => ⟨100, i, 0⟩) = false ∧ onGrid4 (tileOf fun i => ⟨100, i, 0⟩) = false ∧
    15 < (List.replicate 16 (0 : Int)).length := by decide

/-- Codes at the ends of both modes' ranges, deltas 3 and -4. -/
theorem witness_UnpackReturnsPackedConfiguration :
    rgbInRange .ind ⟨0, 15, 7⟩ = true ∧ rgbInRange .dif ⟨31, 4, 0⟩ = true ∧ rgbInRange .dif ⟨31, 0, 3⟩ = true ∧
    deltaOk ⟨31, 4, 0⟩ ⟨31, 0, 3⟩ = true := by decide

/-- In range at both ends (V-DEC-11, V-DEC-12), and below and above (V-DEC-10, V-DEC-9). -/
theorem witness_DifferentialBlockWritesPixels :
    rgbInRange .dif (diffCode2raw (diffFields 0x2400000200000000#64)) = true ∧
    rgbInRange .dif (diffCode2raw (diffFields 0x8300000200000000#64)) = true ∧
    rgbInRange .dif (diffCode2raw (diffFields 0x0400000200000000#64)) = false ∧
    rgbInRange .dif (diffCode2raw (diffFields 0xFB00000200000000#64)) = false := by decide

theorem witness_DecompressRunsTheBlock :
    (∃ u, exec (decodeBlock (0x8844CC24#32 ++ 0xFFFF0000#32)) (blockInput 0x8844CC24#32 0xFFFF0000#32) = .next u) ∧
    ∃ r, exec (decodeBlock (0xFB000002#32 ++ 0#32)) (withParams .fault (blockInput 0xFB000002#32 0#32)) =
      .fault r :=
  ⟨⟨_, rfl⟩, ⟨_, rfl⟩⟩

/-- Nothing written, or both halves. -/
theorem witness_DecompressRunsTheBlock_inputs :
    afterInit.status.initDone = true ∧ (blockInput 5#32 6#32).inBlockHi.written = 0xF#4 ∧
    (blockInput 5#32 6#32).inBlockLo.written = 0xF#4 := by decide

theorem witness_DecompressNeverRejectsABlock :
    (blockInput 0xFB000002#32 0#32).status.initDone = true ∧
    (blockInput 0xFB000002#32 0#32).params.diffOverflow = .clamp ∧
    (blockInput 0xFB000002#32 0#32).inBlockHi.written = 0xF#4 ∧
    (blockInput 0x8844CC24#32 0#32).inBlockHi.value.getLsbD 1 = false := by decide

/-- Second codes 0 (4 - 4) and 31 (28 + 3) are in range with DIFF_OVERFLOW = fault. -/
theorem witness_DecompressNeverRejectsABlock_in_range :
    let inRange := fun hi : Word => ∀ field ∈ [(27, 24), (19, 16), (11, 8)],
      0 ≤ ((hi.extractLsb' field.1 5).toNat : Int) + (hi.extractLsb' field.2 3).toInt ∧
      ((hi.extractLsb' field.1 5).toNat : Int) + (hi.extractLsb' field.2 3).toInt ≤ 31
    (withParams .fault (blockInput 0x24000002#32 0#32)).params.diffOverflow = .fault ∧
    inRange 0x24000002#32 ∧ inRange 0xE3000002#32 := by decide

theorem witness_DecompressDependsOnlyOnBlock :
    (∃ t, exec (.decompress true) (blockInput 0x8844CC24#32 0#32) = .next t) ∧
    ∃ t, exec (.decompress false) { blockInput 0x8844CC24#32 0#32 with
      outPix := Vector.replicate 16 (DataReg.store 9#32) } = .next t :=
  ⟨⟨_, rfl⟩, ⟨_, rfl⟩⟩

theorem witness_StepRunsDecodedCommand : decode (commandBytes 0x42#32) = .ok (.compress 0#2 true) := by decide

theorem witness_StepRunsDecodedBlock :
    decode (blockBytes (0x84000002#32 ++ 0#32)) = .ok (sampleDiff (-4) 0 0) ∧
    ∃ u, exec (sampleDiff (-4) 0 0) (blockInput 0x84000002#32 0#32) = .next u :=
  ⟨by decide, _, rfl⟩

/-- Two codecs at 0x1000 and 0x1100. -/
def pair : Platform where
  slots := [{ base := 0x1000, unit := State.reset },
            { base := 0x1100, unit := { State.reset with params := { Config.defaultParams with unitId := 1 } } }]

/-- INIT at codec 1 leaves codec 0 uninitialised (R132); a schedule over both runs. -/
theorem witness_platforms :
    pair.wf = true ∧ (∃ q, pair.deliver 1 (.write 0 4 1#32) = .next q) ∧
    ∃ q, pair.run [(1, .write 0 4 1#32), (0, .write 0x010 4 5#32), (1, .read 4 4)] = .next q :=
  ⟨by decide, ⟨_, rfl⟩, ⟨_, rfl⟩⟩

/-- Inside a codec's space, and outside every one. -/
theorem test_platform_routes : pair.route 0x10FF = some 0 ∧ pair.route 0x1100 = some 1 ∧ pair.route 0x1200 = none := by
  decide

end Sys2Proof.Tests
end

section
/-!
PROOF. Statements of the scope chapter: the combinations of the search as first minima over the codes of
the candidate lists (R8, R74 to R76), and the routing of a platform's addresses (R6, R23).
-/

namespace Sys2Proof.Machine

/-! ### First minima of a mapped list -/

section FirstMinima

variable {α β : Type}

theorem argmin_map (f : β → Int) (g : α → β) (a : α) (l : List α) :
    argmin f (g a) (l.map g) = g (argmin (f ∘ g) a l) := by
  induction l generalizing a with
  | nil => rfl
  | cons c rest ih =>
    simp only [List.map_cons, argmin, Function.comp_apply]
    rw [← apply_ite g, ih]

theorem argmin_map_split (f : β → Int) (g : α → β) (a : α) (l : List α) :
    let best := argmin f (g a) (l.map g)
    ∃ before x after, a :: l = before ++ x :: after ∧ best = g x ∧
      (∀ y ∈ before, f best < f (g y)) ∧ ∀ y ∈ after, f best ≤ f (g y) := by
  rw [argmin_map]
  obtain ⟨before, after, hsplit, hbefore, hafter⟩ := argmin_split (f ∘ g) a l
  exact ⟨before, _, after, hsplit, rfl, hbefore, hafter⟩

theorem firstMin_map (f : β → Int) (g : α → β) (l : List α) :
    firstMin f (l.map g) = (firstMin (f ∘ g) l).map g := by
  cases l with
  | nil => rfl
  | cons a rest => exact congrArg some (argmin_map f g a rest)

end FirstMinima

/-! ### The combinations of the search, by the codes of the candidates -/

/-- R55, R56: the ordered candidate codes of a subblock. -/
def subCandidates (q : Quality) (m : Mode) (pixels : List Rgb) : List Rgb :=
  candidates q m (quantizeRgb (channelSums pixels) m)

/-- R75: the pairs of candidate codes that satisfy the delta constraint, subblock 1 in the outer loop. -/
def codePairs (d : Tile) (q : Quality) (flip : Bool) : List (Rgb × Rgb) :=
  ((subCandidates q .dif (subPixels d flip .one)).flatMap fun a =>
    (subCandidates q .dif (subPixels d flip .two)).map fun b => (a, b)).filter fun ab => deltaOk ab.1 ab.2

/-- R64, R75: the differential configuration of a pair of codes. -/
def difConfiguration (tables : ModTable) (d : Tile) (flip : Bool) (ab : Rgb × Rgb) : Configuration :=
  { mode := .dif
    flip := flip
    sub1 := select tables (subPixels d flip .one) .dif ab.1
    sub2 := select tables (subPixels d flip .two) .dif ab.2 }

theorem evaluated_eq_map_select (tables : ModTable) (pixels : List Rgb) (q : Quality) (m : Mode) :
    (evaluated tables pixels q m).1 :: (evaluated tables pixels q m).2 =
      (subCandidates q m pixels).map (select tables pixels m) := rfl

theorem mem_codePairs {d : Tile} {q : Quality} {flip : Bool} {a b : Rgb} :
    (a, b) ∈ codePairs d q flip ↔
      (a ∈ subCandidates q .dif (subPixels d flip .one) ∧ b ∈ subCandidates q .dif (subPixels d flip .two)) ∧
        deltaOk a b = true := by
  simp [codePairs]

theorem codePairs_eq_nil_iff (d : Tile) (q : Quality) (flip : Bool) :
    codePairs d q flip = [] ↔
      ∀ a ∈ subCandidates q .dif (subPixels d flip .one),
        ∀ b ∈ subCandidates q .dif (subPixels d flip .two), deltaOk a b = false := by
  simp only [List.eq_nil_iff_forall_not_mem, Prod.forall, mem_codePairs, not_and, Bool.not_eq_true, and_imp]
  exact forall_congr' fun a => forall_comm

/-- R74: the best evaluated candidate is the first of least error in list order. -/
theorem argmin_evaluated_split (tables : ModTable) (pixels : List Rgb) (q : Quality) (m : Mode) :
    let best := argmin SubChoice.err (evaluated tables pixels q m).1 (evaluated tables pixels q m).2
    ∃ before a after, subCandidates q m pixels = before ++ a :: after ∧ best = select tables pixels m a ∧
      (∀ x ∈ before, best.err < (select tables pixels m x).err) ∧
      ∀ x ∈ after, best.err ≤ (select tables pixels m x).err :=
  argmin_map_split SubChoice.err (select tables pixels m) _ _

/-- The evaluated pairs are those of the code pairs, in the same order: `select` keeps the code, so the
delta constraint filters both lists alike. -/
theorem diffPairs_eq_map_codePairs (tables : ModTable) (d : Tile) (q : Quality) (flip : Bool) :
    diffPairs flip ((subCandidates q .dif (subPixels d flip .one)).map (select tables (subPixels d flip .one) .dif))
        ((subCandidates q .dif (subPixels d flip .two)).map (select tables (subPixels d flip .two) .dif)) =
      (codePairs d q flip).map (difConfiguration tables d flip) := by
  have hfilter : (fun c : Configuration => deltaOk c.sub1.code c.sub2.code) ∘ difConfiguration tables d flip =
      fun ab => deltaOk ab.1 ab.2 := rfl
  rw [codePairs, ← hfilter, ← List.filter_map]
  simp only [diffPairs, List.flatMap_map, List.map_flatMap, List.map_map]
  rfl

theorem evaluateDif_eq_firstMin_codePairs (tables : ModTable) (d : Tile) (q : Quality) (flip : Bool) :
    evaluateDif tables d q flip =
      (firstMin (Configuration.total ∘ difConfiguration tables d flip) (codePairs d q flip)).map
        (difConfiguration tables d flip) := by
  simp only [evaluateDif, evaluated_eq_map_select, diffPairs_eq_map_codePairs, firstMin_map]

theorem evaluateDif_eq_none_iff (tables : ModTable) (d : Tile) (q : Quality) (flip : Bool) :
    evaluateDif tables d q flip = none ↔ codePairs d q flip = [] := by
  rw [evaluateDif_eq_firstMin_codePairs, Option.map_eq_none_iff, firstMin_eq_none]

/-- R75: a representable differential combination is that of the first code pair of least total. -/
theorem evaluateDif_split {tables : ModTable} {d : Tile} {q : Quality} {flip : Bool} {c : Configuration}
    (h : evaluateDif tables d q flip = some c) :
    ∃ before ab after, codePairs d q flip = before ++ ab :: after ∧ c = difConfiguration tables d flip ab ∧
      (∀ x ∈ before, c.total < (difConfiguration tables d flip x).total) ∧
      ∀ x ∈ after, c.total ≤ (difConfiguration tables d flip x).total := by
  rw [evaluateDif_eq_firstMin_codePairs, Option.map_eq_some_iff] at h
  obtain ⟨ab, hmin, rfl⟩ := h
  obtain ⟨before, after, hsplit, hbefore, hafter⟩ := firstMin_split hmin
  exact ⟨before, ab, after, hsplit, rfl, hbefore, hafter⟩

/-- Settles O37: the search scans evaluated candidates, which are the candidate codes under `select`, so
its first minima are first minima over the codes. -/
theorem combinationsAreBestOverCandidates : Obligations.CombinationsAreBestOverCandidates := by
  intro tables d q flip p1 p2 cand pairs totalOf
  refine ⟨⟨rfl, rfl, argmin_evaluated_split tables p1 q .ind, argmin_evaluated_split tables p2 q .ind⟩, ?_, ?_⟩
  · exact (evaluateDif_eq_none_iff tables d q flip).trans (codePairs_eq_nil_iff d q flip)
  · intro c hc
    obtain ⟨before, ab, after, hsplit, rfl, hbefore, hafter⟩ := evaluateDif_split hc
    have hmem : (ab.1, ab.2) ∈ codePairs d q flip := by simp [hsplit]
    exact ⟨rfl, rfl, before, ab, after, hsplit, (mem_codePairs.mp hmem).2, rfl, rfl, hbefore, hafter⟩

/-! ### Routing on a platform -/

theorem Slot.holds_iff (sl : Slot) (addr : Nat) :
    sl.holds addr = true ↔ sl.base ≤ addr ∧ addr < sl.base + 256 := by
  simp [Slot.holds]

theorem Platform.disjoint_of_wf {p : Platform} (h : p.wf = true) :
    p.slots.Pairwise fun a b => a.base + 256 ≤ b.base ∨ b.base + 256 ≤ a.base := by
  simp only [Platform.wf, Bool.and_eq_true, decide_eq_true_eq] at h
  exact h.2

/-- R23: the register spaces of a well-formed platform are disjoint, so the first slot that holds an
address of codec i's space is codec i's own. -/
theorem Platform.route_base_add {p : Platform} {i : Nat} {sl : Slot} {off : Nat} (hwf : p.wf = true)
    (hsl : p.slots[i]? = some sl) (hoff : off < 256) : p.route (sl.base + off) = some i := by
  obtain ⟨hi, rfl⟩ := List.getElem?_eq_some_iff.mp hsl
  refine List.findIdx?_eq_some_iff_getElem.mpr ⟨hi, (Slot.holds_iff _ _).mpr (by omega), fun j hj hholds => ?_⟩
  have hdisjoint := List.pairwise_iff_getElem.mp (Platform.disjoint_of_wf hwf) j i (by omega) hi hj
  have hspace := (Slot.holds_iff _ _).mp hholds
  omega

theorem Platform.base_getD {p : Platform} {i : Nat} {sl : Slot} (hsl : p.slots[i]? = some sl) :
    (p.slots.map Slot.base).getD i 0 = sl.base := by
  simp [List.getD_eq_getElem?_getD, hsl]

/-- Settles O60: such an address routes to its codec, and the offset delivered is the address less that
codec's base. -/
theorem addressesReachTheirCodec : Obligations.AddressesReachTheirCodec := by
  intro p i sl off width v hwf hsl hoff
  have hroute := Platform.route_base_add hwf hsl hoff
  have hbase := Platform.base_getD hsl
  constructor
  · simp only [Platform.read, hroute, hbase, Nat.add_sub_cancel_left]
  · simp only [Platform.write, hroute, hbase, Nat.add_sub_cancel_left]

end Sys2Proof.Machine
end

section
/-!
PROOF. Statements of the state chapter: the register invariant, the fields of STATUS under every event,
host accesses to the register file, the strict reading of unwritten registers, and the step as the
decoded command.
-/

namespace Sys2Proof.Machine

/-! ### The register invariant -/

/-- The invariant speaks of registers only: the parameters and the model's own fields are free. -/
theorem State.Inv.of_registers {s : State} (h : s.Inv) (p : Params) (epoch draws : Nat)
    (queue : List HostEvent) (answer : Option Word) :
    State.Inv { s with params := p, epoch := epoch, draws := draws, queue := queue, hostData := answer } :=
  { h with }

theorem DataReg.store_wholeWord (w : Word) : (DataReg.store w).wholeWord := .inr rfl

theorem DataReg.store_pixelWord (w : Word) : (DataReg.store w).pixelWord := .inr (.inr rfl)

theorem State.reset_inv : State.reset.Inv where
  tables := rfl
  sticky := fun h => absurd rfl h
  validInit := nofun
  validPixels := nofun
  blockInit := nofun
  blockHalves := rfl
  inPixWhole := fun i => .inl (congrArg DataReg.written (reset_inPix_get i))
  inBlockHiWhole := .inl rfl
  inBlockLoWhole := .inl rfl
  outBlockWhole := .inl rfl
  outPixBytes := fun i => .inl (congrArg DataReg.written (reset_outPix_get i))

theorem State.Inv.platformReset (s : State) : s.platformReset.Inv :=
  State.reset_inv.of_registers s.params (s.epoch + 1) s.draws s.queue none

/-- R123: an error records its code and sets the sticky bit with it. -/
theorem State.Inv.raiseError {s : State} (h : s.Inv) (code : ErrCode) : (s.raiseError code).Inv :=
  { h with sticky := fun _ => rfl }

theorem State.Inv.initCommand {s : State} (h : s.Inv) : s.markInitDone.commandDone.Inv :=
  { h with
    sticky := fun he => absurd rfl he
    validInit := fun _ => rfl
    blockInit := fun _ => rfl }

/-- R79: both halves of OUT_BLOCK become whole words together, after INIT (R122). -/
theorem State.Inv.compressCommand {s : State} (h : s.Inv) (hinit : s.status.initDone = true) (blk : Block) :
    (s.writeOutBlock blk).commandDone.Inv :=
  { h with
    sticky := fun he => absurd rfl he
    blockInit := fun _ => hinit
    blockHalves := rfl
    outBlockWhole := DataReg.store_wholeWord _ }

/-- Pixel i after a DECOMPRESS (R108). -/
theorem finishDecompress_outPix_get (preserve : Bool) (pixels : Tile) (s : State) (i : Fin 16) :
    ((finishDecompress preserve (s.writeOutRgb pixels)).outPix)[i] =
      if preserve then (s.outPix[i]).storeRgb pixels[i]
      else ((s.outPix[i]).storeRgb pixels[i]).storeAlpha255 := by
  cases preserve <;> simp [finishDecompress]

/-- R108: DECOMPRESS writes the colour bytes of every pixel, so VALID may become 1. -/
theorem State.Inv.decompressCommand {s : State} (h : s.Inv) (hinit : s.status.initDone = true)
    (preserve : Bool) (pixels : Tile) : (finishDecompress preserve (s.writeOutRgb pixels)).Inv where
  tables := by simpa [finishDecompress] using h.tables
  sticky := fun he => absurd rfl he
  validInit := fun _ => by simpa [finishDecompress] using hinit
  validPixels := fun _ i => by
    rw [finishDecompress_outPix_get]
    cases preserve with
    | true => exact DataReg.storeRgb_written_ne _ _
    | false => simp [written_rgb_alpha]
  blockInit := fun _ => by simpa [finishDecompress] using hinit
  blockHalves := by simpa [finishDecompress] using h.blockHalves
  inPixWhole := by simpa [finishDecompress] using h.inPixWhole
  inBlockHiWhole := by simpa [finishDecompress] using h.inBlockHiWhole
  inBlockLoWhole := by simpa [finishDecompress] using h.inBlockLoWhole
  outBlockWhole := by simpa [finishDecompress] using h.outBlockWhole
  outPixBytes := fun i => by
    rw [finishDecompress_outPix_get]
    cases preserve with
    | true => exact DataReg.storeRgb_pixelWord _ _ (h.outPixBytes i)
    | false => exact DataReg.storeAlpha255_storeRgb_pixelWord _ _

/-- R25: a host write leaves a whole word in the register it names, and the others as they were. -/
theorem State.Inv.storeReg {s : State} (h : s.Inv) (n : RegName) (w : Word) : (s.storeReg n w).Inv where
  tables := by simpa using h.tables
  sticky := by simpa using h.sticky
  validInit := by simpa using h.validInit
  validPixels := fun hv i => by
    rw [State.storeReg_outPix_get]
    split
    · simp
    · exact h.validPixels (by simpa using hv) i
  blockInit := by simpa using h.blockInit
  blockHalves := by simpa using h.blockHalves
  inPixWhole := fun i => by
    rw [State.storeReg_inPix_get]
    split
    · exact DataReg.store_wholeWord w
    · exact h.inPixWhole i
  inBlockHiWhole := by
    rw [State.storeReg_inBlockHi]
    split
    · exact DataReg.store_wholeWord w
    · exact h.inBlockHiWhole
  inBlockLoWhole := by
    rw [State.storeReg_inBlockLo]
    split
    · exact DataReg.store_wholeWord w
    · exact h.inBlockLoWhole
  outBlockWhole := by simpa using h.outBlockWhole
  outPixBytes := fun i => by
    rw [State.storeReg_outPix_get]
    split
    · exact DataReg.store_pixelWord w
    · exact h.outPixBytes i

theorem State.Inv.runCommand {w : Word} {s t : State} (h : s.Inv) (hrun : runCommand w s = .next t) : t.Inv := by
  rcases runCommand_next hrun with ⟨-, rfl⟩ | ⟨-, rfl⟩ | ⟨-, -, rfl⟩ | ⟨-, hinit, blk, rfl⟩ | ⟨a, -, hinit, pixels, rfl⟩
  · exact h.raiseError _
  · exact h.initCommand
  · exact h.raiseError _
  · exact h.compressCommand hinit blk
  · exact h.decompressCommand hinit a pixels

theorem State.Inv.performEvent {e : HostEvent} {s t : State} (h : s.Inv) (hev : performEvent e s = .next t) :
    t.Inv := by
  have answered : State.Inv { s with hostData := none } := h.of_registers _ _ _ _ none
  rcases performEvent_next hev with ⟨-, rfl⟩ | ⟨n, -, rfl⟩ | ⟨n, v, -, -, rfl⟩ | ⟨v, -, hrun⟩ |
    ⟨-, ⟨off, width, -, -, rfl⟩ | ⟨off, width, v, -, -, rfl⟩⟩
  · exact .platformReset s
  · exact h.of_registers _ _ _ _ _
  · exact answered.storeReg n v
  · exact answered.runCommand hrun
  · exact h.of_registers _ _ _ _ _
  · exact answered

/-- Settles O3: every data register is unwritten and STATUS is 0. -/
theorem resetMeetsRegisterInvariant : Obligations.ResetMeetsRegisterInvariant := State.reset_inv

/-- Settles O4: an idle step changes nothing, and every event keeps the invariant. -/
theorem stepKeepsRegisterInvariant : Obligations.StepKeepsRegisterInvariant := by
  intro s t h hstep
  rcases step_next hstep with ⟨-, rfl⟩ | ⟨e, rest, -, hev⟩
  · exact h
  · exact (h.of_registers _ _ _ rest _).performEvent hev

/-- Settles O1: the table of R22, read off the reset state. -/
theorem resetValuesOfEveryRegister : Obligations.ResetValuesOfEveryRegister :=
  ⟨rfl, by decide, rfl, fun i => congrArg DataReg.written (State.reset_inPix_get i), rfl, rfl, rfl, rfl,
    fun i => congrArg DataReg.written (State.reset_outPix_get i), rfl⟩

/-! ### The STATUS word -/

theorem ErrCode.bits_inj {c d : ErrCode} : c.bits = d.bits ↔ c = d := by
  cases c <;> cases d <;> decide

theorem ErrCode.bits_le_two (c : ErrCode) : c.bits ≤ 2#4 := by
  cases c <;> decide

/-- R13: the layout of STATUS, over all values of its seven stored bits. -/
theorem statusLayout_fields : ∀ (valid sticky done : Bool) (code : BitVec 4),
    let w : Word := 0#23 ++ BitVec.ofBool valid ++ code ++ 0#2 ++ BitVec.ofBool sticky ++ BitVec.ofBool done
    w.getLsbD 0 = done ∧ w.getLsbD 1 = sticky ∧ w.extractLsb' 2 2 = 0#2 ∧ w.extractLsb' 4 4 = code ∧
      w.getLsbD 8 = valid ∧ w.extractLsb' 9 23 = 0#23 := by
  decide

theorem Status.word_fields (st : Status) :
    st.word.getLsbD 0 = st.initDone ∧ st.word.getLsbD 1 = st.errSticky ∧ st.word.extractLsb' 2 2 = 0#2 ∧
      st.word.extractLsb' 4 4 = st.lastErr.bits ∧ st.word.getLsbD 8 = st.valid ∧
      st.word.extractLsb' 9 23 = 0#23 :=
  statusLayout_fields st.valid st.errSticky st.initDone st.lastErr.bits

/-- Settles O12: the layout puts each field where R13 says, and the codes of LAST_ERR are distinct. -/
theorem statusWordFields : Obligations.StatusWordFields := by
  intro s
  obtain ⟨hdone, hsticky, hlow, hcode, hvalid, hhigh⟩ := s.status.word_fields
  have hlastErr (c : ErrCode) : s.status.lastErr = c ↔ s.status.word.extractLsb' 4 4 = c.bits := by
    rw [hcode, ErrCode.bits_inj]
  have hle : s.status.word.extractLsb' 4 4 ≤ 2#4 := hcode ▸ s.status.lastErr.bits_le_two
  exact ⟨hdone, hsticky, hlow, hlastErr .none, hlastErr .illegalCommand, hlastErr .notInitialized, hle,
    hvalid, hhigh⟩

/-! ### STATUS under an event -/

theorem performEvent_write_cmd (w : Word) (s : State) :
    performEvent (.write 0 4 w) s = runCommand w { s with hostData := none } := rfl

theorem accessedReg_regOffset (n : RegName) : accessedReg (regOffset n) 4 = some n := by
  simp [accessedReg, regAt_regOffset]

theorem regOffset_eq_zero_iff (n : RegName) : regOffset n = 0 ↔ n = .cmd :=
  ⟨fun h => regOffset_injective (n := .cmd) h, fun h => h ▸ rfl⟩

/-- R30: 0x00000001 is INIT's one word. -/
theorem decodeCommand_eq_init_iff (w : Word) : decodeCommand w = .ok .init ↔ w = 0x00000001#32 := by
  constructor
  · intro h
    simp only [decodeCommand] at h
    split at h
    · rename_i hinit
      simp only [← BitVec.toNat_inj, BitVec.extractLsb'_toNat, BitVec.toNat_ofNat] at hinit ⊢
      omega
    · split at h
      · cases h
      · split at h <;> cases h
  · rintro rfl; decide

/-- R120 to R125: STATUS before and after a command word. -/
inductive CommandStatus (w : Word) (st : Status) : Status → Prop
  /-- An illegal word (R121, R123). -/
  | illegal (hd : ∀ i, decodeCommand w ≠ .ok i) : CommandStatus w st (st.fail .illegalCommand)
  /-- INIT (R43). -/
  | init (hd : decodeCommand w = .ok .init) : CommandStatus w st st.setInitDone.succeed
  /-- COMPRESS or DECOMPRESS before INIT (R122). -/
  | early {i : Instr} (hd : decodeCommand w = .ok i) (hi : i ≠ .init) (hinit : st.initDone = false) :
      CommandStatus w st (st.fail .notInitialized)
  /-- COMPRESS after INIT (R70, R125). -/
  | compress {q : BitVec 2} {d : Bool} (hd : decodeCommand w = .ok (.compress q d)) (hinit : st.initDone = true) :
      CommandStatus w st st.succeed
  /-- DECOMPRESS after INIT (R108, R109, R125). -/
  | decompress {a : Bool} (hd : decodeCommand w = .ok (.decompress a)) (hinit : st.initDone = true) :
      CommandStatus w st st.setValid.succeed

theorem runCommand_status {w : Word} {s t : State} (h : runCommand w s = .next t) :
    CommandStatus w s.status t.status := by
  rcases runCommand_next h with ⟨⟨r, hd⟩, rfl⟩ | ⟨hd, rfl⟩ | ⟨⟨i, hd, hi⟩, hinit, rfl⟩ |
    ⟨⟨q, d, hd⟩, hinit, blk, rfl⟩ | ⟨a, hd, hinit, pixels, rfl⟩
  · exact .illegal (by simp [hd])
  · exact .init hd
  · exact .early hd hi hinit
  · exact .compress hd hinit
  · have hstatus : (finishDecompress a (s.writeOutRgb pixels)).status = s.status.setValid.succeed := by
      simp [finishDecompress]
    exact hstatus ▸ .decompress hd hinit

/-- As far as STATUS is concerned an event is a reset, a command word, or an access that keeps it
(R13, R24, R140). -/
theorem performEvent_status {e : HostEvent} {s t : State} (h : performEvent e s = .next t) :
    (e = .reset ∧ t.status = Status.reset) ∨
    (∃ w, e = .write 0 4 w ∧ CommandStatus w s.status t.status) ∨
    ((∀ w, e ≠ .write 0 4 w) ∧ e ≠ .reset ∧ t.status = s.status) := by
  rcases performEvent_next h with ⟨rfl, rfl⟩ | ⟨n, rfl, rfl⟩ | ⟨n, v, rfl, hn, rfl⟩ | ⟨w, rfl, hrun⟩ |
    ⟨-, ⟨off, width, rfl, -, rfl⟩ | ⟨off, width, v, rfl, hillegal, rfl⟩⟩
  · exact .inl ⟨rfl, rfl⟩
  · exact .inr (.inr ⟨nofun, nofun, rfl⟩)
  · refine .inr (.inr ⟨fun w hw => hn ?_, nofun, State.storeReg_status _ n v⟩)
    injection hw with hoff
    exact (regOffset_eq_zero_iff n).mp hoff
  · have hcommand : CommandStatus w { s with hostData := none }.status t.status := runCommand_status hrun
    exact .inr (.inl ⟨w, rfl, hcommand⟩)
  · exact .inr (.inr ⟨nofun, nofun, rfl⟩)
  · refine .inr (.inr ⟨fun w hw => ?_, nofun, rfl⟩)
    injection hw with hoff hwidth
    subst hoff hwidth
    exact nomatch hillegal

/-- Settles O13: of the command words only INIT's changes INIT_DONE, and sets it. -/
theorem initDoneSetOnlyByInit : Obligations.InitDoneSetOnlyByInit := by
  intro e s t h
  rcases performEvent_status h with ⟨rfl, ht⟩ | ⟨w, rfl, hcommand⟩ | ⟨hw, hr, ht⟩
  · simp [ht, Status.reset]
  · simp only [HostEvent.write.injEq, true_and, ← decodeCommand_eq_init_iff]
    generalize t.status = after at hcommand ⊢
    cases hcommand with
    | illegal hd => simp [hd]
    | init hd => simp [hd]
    | early hd hi hinit => simp [hd, hi]
    | compress hd hinit => simp [hinit]
    | decompress hd hinit => simp [hinit]
  · simp [ht, hw, hr]

/-- Settles O14: the two failing cases of a command word set ERR_STICKY, the others keep it. -/
theorem errStickySetOnlyByFailure : Obligations.ErrStickySetOnlyByFailure := by
  intro e s t h
  rcases performEvent_status h with ⟨rfl, ht⟩ | ⟨w, rfl, hcommand⟩ | ⟨hw, hr, ht⟩
  · simp [ht, Status.reset]
  · simp only [HostEvent.write.injEq, true_and, exists_eq_left', ne_eq, ← decodeCommand_eq_init_iff]
    generalize t.status = after at hcommand ⊢
    cases hcommand with
    | illegal hd => simp [hd]
    | init hd => simp [hd]
    | early hd hi hinit => simp [hd, hi, hinit]
    | compress hd hinit => simp [hd, hinit]
    | decompress hd hinit => simp [hd, hinit]
  · simp [ht, hw, hr]

/-- Settles O15: each case of a command word names its LAST_ERR. -/
theorem lastErrDescribesLastCommand : Obligations.LastErrDescribesLastCommand := by
  intro e s t h
  rcases performEvent_status h with ⟨rfl, ht⟩ | ⟨w, rfl, hcommand⟩ | ⟨hw, hr, ht⟩
  · simp
  · simp only [HostEvent.write.injEq, true_and, forall_eq', ne_eq]
    generalize t.status = after at hcommand ⊢
    cases hcommand with
    | illegal hd => simp [hd]
    | init hd => simp [hd]
    | early hd hi hinit => simp [hd, hi, hinit]
    | compress hd hinit => simp [hd, hinit]
    | decompress hd hinit => simp [hd, hinit]
  · simp [ht, hw, hr]

/-! ### Host accesses to the register file -/

theorem performEvent_read_regOffset (n : RegName) (s : State) :
    performEvent (.read (regOffset n) 4) s = .next { s with hostData := some (readWord s n) } := by
  simp [performEvent, hostRead, accessedReg_regOffset]

theorem performEvent_write_regOffset {n : RegName} (hn : n ≠ .cmd) (v : Word) (s : State) :
    performEvent (.write (regOffset n) 4 v) s = .next ({ s with hostData := none }.storeReg n v) := by
  simp only [performEvent, hostWrite, accessedReg_regOffset]

/-- Settles O21: each is the write of the register its offset names. -/
theorem hostWriteStoresOneRegister : Obligations.HostWriteStoresOneRegister := fun s v =>
  ⟨fun i => performEvent_write_regOffset (n := .inPix i) nofun v s,
    performEvent_write_regOffset (n := .inBlockHi) nofun v s,
    performEvent_write_regOffset (n := .inBlockLo) nofun v s,
    fun i => performEvent_write_regOffset (n := .outPix i) nofun v s⟩

theorem State.shown_store (s : State) (n : RegName) (v : Word) : s.shown n (DataReg.store v) = v :=
  s.shown_of_written n rfl

theorem State.shown_storeReg (s : State) (n m : RegName) (v : Word) (d : DataReg) :
    (s.storeReg n v).shown m d = s.shown m d := by
  simp [State.shown]

theorem readWord_storeReg_of_ne (s : State) {n m : RegName} (h : n ≠ m) (v : Word) :
    readWord (s.storeReg n v) m = readWord s m := by
  cases m with
  | inPix i => simp only [readWord, State.shown_storeReg, State.storeReg_inPix_get, if_neg h]
  | outPix i => simp only [readWord, State.shown_storeReg, State.storeReg_outPix_get, if_neg h]
  | _ => simp [readWord, State.shown_storeReg, h]

/-- A register the host can write shows the word it wrote (R14, R15, R17). -/
theorem readWord_storeReg_same (s : State) {n : RegName} (v : Word)
    (hn : (∃ i, n = .inPix i) ∨ n = .inBlockHi ∨ n = .inBlockLo ∨ ∃ i, n = .outPix i) :
    readWord (s.storeReg n v) n = v := by
  rcases hn with ⟨i, rfl⟩ | rfl | rfl | ⟨i, rfl⟩
  · simp only [readWord, State.storeReg_inPix_get, if_true, State.shown_store]
  · simp only [readWord, State.storeReg_inBlockHi, if_true, State.shown_store]
  · simp only [readWord, State.storeReg_inBlockLo, if_true, State.shown_store]
  · simp only [readWord, State.storeReg_outPix_get, if_true, State.shown_store]

theorem readWord_hostData (s : State) (answer : Option Word) (m : RegName) :
    readWord { s with hostData := answer } m = readWord s m := by
  cases m <;> rfl

/-- Settles O22: the write stores into the one register, and a read depends on its own register only. -/
theorem readAfterWriteGivesWord : Obligations.ReadAfterWriteGivesWord := by
  intro s t n m v hn h
  have hcmd : n ≠ .cmd := by rintro rfl; simp at hn
  rw [performEvent_write_regOffset hcmd] at h
  cases h
  refine ⟨readWord_storeReg_same _ v hn, fun hm => ?_⟩
  rw [readWord_storeReg_of_ne _ hm.symm, readWord_hostData]

/-! ### Unwritten registers, read strictly -/

theorem modelFault_read_dataReg {s : State} {n : RegName} {d : DataReg} (h : s.dataReg n = some d) :
    modelFault s (.read (regOffset n) 4) = if d.isWritten then none else some .unwrittenRead := by
  simp [modelFault, accessedReg_regOffset, h]

theorem strictEvent_of_modelFault {s : State} {e : HostEvent} {f : ModelFault} (h : modelFault s e = some f) :
    strictEvent e s = .fault f := by
  simp [strictEvent, h]

theorem strictEvent_next {s t : State} {e : HostEvent} (h : modelFault s e = none)
    (hev : performEvent e s = .next t) : strictEvent e s = .next t := by
  simp [strictEvent, h, hev]

/-- Settles O24. -/
theorem unwrittenReadFaults : Obligations.UnwrittenReadFaults := by
  intro s n d hd
  have hfault := modelFault_read_dataReg hd
  constructor
  · intro hw
    exact strictEvent_of_modelFault (by simpa [hfault, DataReg.isWritten_iff] using hw)
  · intro hw
    have hread : performEvent (.read (regOffset n) 4) s = .next { s with hostData := some d.value } := by
      rw [performEvent_read_regOffset, readWord_dataReg s hd, s.shown_of_written n hw]
    have hnone : modelFault s (.read (regOffset n) 4) = none := by
      simp [hfault, (DataReg.isWritten_iff d).mpr hw]
    exact ⟨strictEvent_next hnone hread, hread⟩

/-- The machine's own stops are never called UNWRITTEN_INPUT: the strict reading ends there exactly by the
table (R127). -/
theorem strictEvent_unwrittenInput_iff (s : State) (e : HostEvent) :
    strictEvent e s = .fault .unwrittenInput ↔ modelFault s e = some .unwrittenInput := by
  have hown : ∀ f : Fault, f.inTable ≠ .unwrittenInput := by intro f; cases f <;> decide
  unfold strictEvent
  cases modelFault s e with
  | some f => simp
  | none => cases performEvent e s <;> simp [hown]

theorem modelFault_command {w : Word} {i : Instr} (h : decodeCommand w = .ok i) (s : State) :
    modelFault s (.write 0x000 4 w) = instrFault s i := by
  simp [modelFault, accessedReg, regAt, h]

theorem instrFault_compress_iff (s : State) (q : BitVec 2) (d : Bool) :
    instrFault s (.compress q d) = some .unwrittenInput ↔
      s.status.initDone = true ∧ ∃ i : Fin 16, (s.inPix[i]).written ≠ 0xF#4 := by
  simp [instrFault, mem_pixelNumbers, DataReg.isWritten]

theorem instrFault_decompress_iff (s : State) (a : Bool) :
    instrFault s (.decompress a) = some .unwrittenInput ↔
      s.status.initDone = true ∧ (s.inBlockHi.written ≠ 0xF#4 ∨ s.inBlockLo.written ≠ 0xF#4) := by
  have hunwritten : (s.inBlockHi.isWritten && s.inBlockLo.isWritten) = false ↔
      s.inBlockHi.written ≠ 0xF#4 ∨ s.inBlockLo.written ≠ 0xF#4 := by
    simp [DataReg.isWritten, imp_iff_not_or]
  rw [← hunwritten, instrFault]
  split_ifs with hinit hblock
  · simp [hinit]
  · simp [hinit, hblock]
  · simp [hblock]
  · simp [hblock]

/-- Settles O45. -/
theorem unwrittenInputsStopCommands : Obligations.UnwrittenInputsStopCommands := by
  intro s w
  constructor
  · intro q d hd
    rw [strictEvent_unwrittenInput_iff, modelFault_command hd, instrFault_compress_iff]
  · intro a hd
    rw [strictEvent_unwrittenInput_iff, modelFault_command hd, instrFault_decompress_iff]

/-! ### The step as the decoded command -/

/-- R26: the four lanes of a command word put together again are the word. -/
theorem decode_commandBytes (w : Word) : decode (commandBytes w) = decodeCommand w := by
  have hlanes : w.extractLsb' 24 8 ++ w.extractLsb' 16 8 ++ w.extractLsb' 8 8 ++ w.extractLsb' 0 8 = w := by
    rw [BitVec.extractLsb'_append_extractLsb'_eq_extractLsb' (by rfl),
      BitVec.extractLsb'_append_extractLsb'_eq_extractLsb' (by rfl),
      BitVec.extractLsb'_append_extractLsb'_eq_extractLsb' (by rfl), BitVec.extractLsb'_eq_self]
  exact congrArg decodeCommand hlanes

theorem runCommand_of_decodes {w : Word} {i : Instr} (h : decodeCommand w = .ok i) (s : State) :
    runCommand w s = exec i s := by
  simp [runCommand, h]

theorem step_of_queue {s : State} {e : HostEvent} {rest : List HostEvent} (h : s.queue = e :: rest) :
    step s = performEvent e { s with queue := rest } := by
  simp [step, h]

theorem step_of_idle {s : State} (h : s.queue = []) : step s = .next s := by
  simp [step, h]

/-- Settles O56. -/
theorem stepRunsDecodedCommand : Obligations.StepRunsDecodedCommand := by
  refine ⟨fun s w rest i hq hd => ?_, fun s e rest => step_of_queue, fun s => step_of_idle⟩
  rw [decode_commandBytes] at hd
  rw [step_of_queue hq, performEvent_write_cmd, runCommand_of_decodes hd]

end Sys2Proof.Machine
end

section
/-!
PROOF. Statements of the memory chapter: the register map in both directions (R23), exactly which
accesses are BUS_FAULT (R25), reads without side effects (R27), and the read-only and write-only
registers (R24).
-/

namespace Sys2Proof.Machine

/-! ### The register map -/

theorem regAt_eq_some_iff (off : Nat) (n : RegName) : regAt off = some n ↔ off = regOffset n :=
  ⟨fun h => (regOffset_of_regAt h).symm, fun h => h ▸ regAt_regOffset n⟩

/-- Settles O17: the map and the offsets are inverse to each other, and each offset is R23's. -/
theorem registerMapIsOneToOne : Obligations.RegisterMapIsOneToOne :=
  ⟨regAt_eq_some_iff, rfl, rfl, fun _ => rfl, rfl, rfl, rfl, rfl, fun _ => rfl⟩

/-- R23: the gaps of the map. -/
theorem regAt_eq_none_iff (off : Nat) :
    regAt off = none ↔ off % 4 ≠ 0 ∨ off = 0x008 ∨ off = 0x00C ∨ 0x0A0 ≤ off := by
  unfold regAt
  split_ifs <;> simp only [true_iff, false_iff] <;> omega

/-- R25: the illegal accesses, wherever they are. -/
theorem accessedReg_eq_none_iff (off width : Nat) :
    accessedReg off width = none ↔
      width ≠ 4 ∨ off % 4 ≠ 0 ∨ off = 0x008 ∨ off = 0x00C ∨ 0x0A0 ≤ off := by
  unfold accessedReg
  split_ifs with hwidth
  · simp [hwidth, regAt_eq_none_iff]
  · simp [hwidth]

/-! ### BUS_FAULT

A command has one fault of its own, DIFF_OVERFLOW (R106), so a write that ends in BUS_FAULT ran none. -/

theorem runBlock_fault {blk : Block} {s : State} {f : Fault} (h : runBlock blk s = .fault f) :
    f = .diffOverflow := by
  simp only [runBlock, execEtc1Diff, execEtc1Individual] at h
  split at h
  · split at h
    · cases h; rfl
    · cases h
  · cases h

theorem execDecompress_fault {a : Bool} {s : State} {f : Fault} (h : execDecompress a s = .fault f) :
    f = .diffOverflow := by
  simp only [execDecompress] at h
  split at h
  · cases h
  · split at h
    · cases h
    · rename_i hblock
      cases h; exact runBlock_fault hblock
    · cases h

theorem execCompress_ne_fault (q : BitVec 2) (d : Bool) (s : State) (f : Fault) :
    execCompress q d s ≠ .fault f := by
  unfold execCompress
  split <;> nofun

theorem runCommand_fault {w : Word} {s : State} {f : Fault} (h : runCommand w s = .fault f) :
    f = .diffOverflow := by
  simp only [runCommand] at h
  split at h
  · rename_i i hd
    rcases decodeCommand_ok hd with rfl | ⟨q, d, rfl⟩ | ⟨a, rfl⟩
    · cases h
    · exact absurd h (execCompress_ne_fault q d s f)
    · exact execDecompress_fault h
  · cases h

theorem illegalRead_busFault_iff (s : State) :
    illegalRead s = .fault .busFault ↔ s.params.illegalAccess = .fault := by
  unfold illegalRead
  split <;> simp [*]

theorem illegalWrite_busFault_iff (s : State) :
    illegalWrite s = .fault .busFault ↔ s.params.illegalAccess = .fault := by
  unfold illegalWrite
  split <;> simp [*]

theorem performEvent_read_busFault_iff (off width : Nat) (s : State) :
    performEvent (.read off width) s = .fault .busFault ↔
      accessedReg off width = none ∧ s.params.illegalAccess = .fault := by
  simp only [performEvent, hostRead]
  split <;> rename_i ha
  · simp [ha, illegalRead_busFault_iff]
  · simp [ha]

theorem performEvent_write_busFault_iff (off width : Nat) (v : Word) (s : State) :
    performEvent (.write off width v) s = .fault .busFault ↔
      accessedReg off width = none ∧ s.params.illegalAccess = .fault := by
  simp only [performEvent, hostWrite]
  split <;> rename_i ha
  · simp [ha, illegalWrite_busFault_iff]
  · have hcommand : runCommand v { s with hostData := none } ≠ .fault .busFault :=
      fun h => nomatch runCommand_fault h
    simp [ha, hcommand]
  · simp [ha]

/-- Settles O18: an access is BUS_FAULT exactly where no register is accessed. -/
theorem illegalAccessesAreBusFaults : Obligations.IllegalAccessesAreBusFaults := by
  intro s off width v hparam _
  simp only [performEvent_read_busFault_iff, performEvent_write_busFault_iff, hparam, and_true,
    accessedReg_eq_none_iff, and_self]

/-! ### Reads, and the registers of one direction -/

/-- Settles O23: the word a register shows does not depend on the bus's last answer. -/
theorem readsHaveNoSideEffects : Obligations.ReadsHaveNoSideEffects := by
  intro s t n h
  rw [performEvent_read_regOffset] at h
  cases h
  refine ⟨⟨_, rfl⟩, ?_⟩
  rw [performEvent_read_regOffset, readWord_hostData s (some _)]

/-- Settles O20: what a host write stores in STATUS and OUT_BLOCK is nothing, and CMD shows 0. -/
theorem readOnlyAndWriteOnlyRegisters : Obligations.ReadOnlyAndWriteOnlyRegisters := fun s v =>
  ⟨performEvent_write_regOffset (n := .status) nofun v s,
    performEvent_write_regOffset (n := .outBlockHi) nofun v s,
    performEvent_write_regOffset (n := .outBlockLo) nofun v s,
    performEvent_read_regOffset .cmd s⟩

end Sys2Proof.Machine
end

section
/-!
PROOF. Statements of the encoding chapter: the decoder and the encoder as inverses of each other (R26, R30,
R31, R37), the legal command words, the fields of a block, the expansion of codes (R35), a subblock's sums
and their ranges (R50, R58, R78), and a DECOMPRESS step as the decoded block (R104, R108).
-/

namespace Sys2Proof.Machine

/-! ### Bytes (R26) -/

theorem blockBytes_append (b0 b1 b2 b3 b4 b5 b6 b7 : Byte) :
    blockBytes (b0 ++ b1 ++ b2 ++ b3 ++ b4 ++ b5 ++ b6 ++ b7) = [b0, b1, b2, b3, b4, b5, b6, b7] := by
  simp (disch := decide) only [blockBytes, BitVec.extractLsb'_append_eq_of_le, BitVec.extractLsb'_append_eq_of_add_le]
  simp

theorem commandBytes_append (l0 l1 l2 l3 : Byte) : commandBytes (l3 ++ l2 ++ l1 ++ l0) = [l0, l1, l2, l3] := by
  simp [commandBytes, extractLsb'_bytes]

theorem decode_blockBytes (blk : Block) : decode (blockBytes blk) = .ok (decodeBlock blk) := by
  have hbytes : blk.extractLsb' 56 8 ++ blk.extractLsb' 48 8 ++ blk.extractLsb' 40 8 ++ blk.extractLsb' 32 8 ++
      blk.extractLsb' 24 8 ++ blk.extractLsb' 16 8 ++ blk.extractLsb' 8 8 ++ blk.extractLsb' 0 8 = blk := by
    simp only [BitVec.extractLsb'_append_extractLsb'_eq_extractLsb', BitVec.extractLsb'_eq_self]
  exact congrArg (fun b => Except.ok (decodeBlock b)) hbytes

/-- R26, R37: what decodes is a command word's four bytes or a block's eight. -/
theorem decode_eq_ok_iff (bytes : List Byte) (i : Instr) :
    decode bytes = .ok i ↔
      (∃ w, bytes = commandBytes w ∧ decodeCommand w = .ok i) ∨
      ∃ blk, bytes = blockBytes blk ∧ decodeBlock blk = i := by
  constructor
  · intro h
    unfold decode at h
    split at h
    · exact .inl ⟨_, (commandBytes_append ..).symm, h⟩
    · exact .inr ⟨_, (blockBytes_append ..).symm, Except.ok.inj h⟩
    · cases h
  · rintro (⟨w, rfl, h⟩ | ⟨blk, rfl, rfl⟩)
    · rw [decode_commandBytes, h]
    · exact decode_blockBytes blk

/-! ### Command words (R30) -/

theorem ofBool_getLsbD {n : Nat} (w : BitVec n) (i : Nat) : BitVec.ofBool (w.getLsbD i) = w.extractLsb' i 1 := by
  ext j hj
  obtain rfl : j = 0 := by omega
  simp

@[simp] theorem ofBool_beq_one (b : Bool) : (BitVec.ofBool b == 1#1) = b := by
  cases b <;> rfl

/-- R30: a word with the opcode 2 and zeros above bit 6 is the COMPRESS word of its own fields. -/
theorem compressWord_fields {w : Word} (hop : w.extractLsb' 0 4 = 2#4) (hzero : w.extractLsb' 7 25 = 0#25) :
    compressWord (w.extractLsb' 4 2) (w.getLsbD 6) = w := by
  simp only [compressWord, ← hop, ← hzero, ofBool_getLsbD, BitVec.extractLsb'_append_extractLsb'_eq_extractLsb',
    BitVec.extractLsb'_eq_self]

/-- R30: a word with the opcode 3 and zeros in bits 4 to 6 and above bit 7 is the DECOMPRESS word of its
own field. -/
theorem decompressWord_field {w : Word} (hop : w.extractLsb' 0 4 = 3#4) (hhigh : w.extractLsb' 8 24 = 0#24)
    (hlow : w.extractLsb' 4 3 = 0#3) : decompressWord (w.getLsbD 7) = w := by
  have hseven : w.extractLsb' 4 3 ++ w.extractLsb' 0 4 = 3#7 := by rw [hop, hlow]; rfl
  simp only [decompressWord, ← hseven, ← hhigh, ofBool_getLsbD,
    BitVec.extractLsb'_append_extractLsb'_eq_extractLsb', BitVec.extractLsb'_eq_self]

theorem decodeCommand_compressWord (q : BitVec 2) (d : Bool) :
    decodeCommand (compressWord q d) = .ok (.compress q d) := by
  revert q d; decide

theorem decodeCommand_decompressWord (a : Bool) : decodeCommand (decompressWord a) = .ok (.decompress a) := by
  revert a; decide

/-- R30, R121: the legal words are those of the encoder, each with one meaning. -/
theorem decodeCommand_eq_ok_iff (w : Word) (i : Instr) :
    decodeCommand w = .ok i ↔
      (i = .init ∧ w = initWord) ∨ (∃ q d, i = .compress q d ∧ w = compressWord q d) ∨
      ∃ a, i = .decompress a ∧ w = decompressWord a := by
  constructor
  · intro h
    rcases decodeCommand_ok h with rfl | hrest
    · exact .inl ⟨rfl, (decodeCommand_eq_init_iff w).mp h⟩
    · unfold decodeCommand at h
      split at h
      · cases h; simp at hrest
      · split at h <;> rename_i hcompress
        · cases h
          obtain ⟨hop, hzero⟩ := hcompress
          exact .inr (.inl ⟨_, _, rfl, (compressWord_fields hop hzero).symm⟩)
        · split at h <;> rename_i hdecompress
          · cases h
            obtain ⟨hop, hhigh, hlow⟩ := hdecompress
            exact .inr (.inr ⟨_, rfl, (decompressWord_field hop hhigh hlow).symm⟩)
          · cases h
  · rintro (⟨rfl, rfl⟩ | ⟨q, d, rfl, rfl⟩ | ⟨a, rfl, rfl⟩)
    · rfl
    · exact decodeCommand_compressWord q d
    · exact decodeCommand_decompressWord a

theorem decodeCommand_eq_error {w : Word} (h : ∀ i, decodeCommand w ≠ .ok i) :
    decodeCommand w = .error (.illegalCommand w) := by
  unfold decodeCommand at h ⊢
  split_ifs at h ⊢
  · simp at h
  · simp at h
  · simp at h
  · rfl

/-! ### Blocks (R31) -/

theorem sext3_eq_toInt (v : BitVec 3) : sext3 v = v.toInt := by
  revert v; decide

theorem deltaInRange_iff (d : Int) : deltaInRange d = true ↔ -4 ≤ d ∧ d ≤ 3 := by
  simp [deltaInRange]

theorem deltaInRange_sext3 (v : BitVec 3) : deltaInRange (sext3 v) = true := by
  revert v; decide

theorem ofInt_sext3 (v : BitVec 3) : BitVec.ofInt 3 (sext3 v) = v := by
  rw [sext3_eq_toInt, BitVec.ofInt_toInt]

/-- R31: three bits hold every delta in [-4, 3]. -/
theorem sext3_ofInt {d : Int} (h : deltaInRange d = true) : sext3 (BitVec.ofInt 3 d) = d := by
  obtain ⟨hlo, hhi⟩ := (deltaInRange_iff d).mp h
  rw [sext3_eq_toInt, BitVec.toInt_ofInt, Int.bmod_eq_of_le] <;> omega

theorem indFields_encodeInd (b : IndBlock) : indFields (encodeInd b) = b := by
  simp (disch := decide) only [indFields, encodeInd, BitVec.getLsbD_eq_extractLsb',
    BitVec.extractLsb'_append_eq_of_le, BitVec.extractLsb'_append_eq_of_add_le]
  simp

theorem encodeInd_formatBit (b : IndBlock) : (encodeInd b).getLsbD 33 = false := by
  simp only [encodeInd, BitVec.getLsbD_append]
  simp

theorem diffFields_encodeDiff {b : DiffBlock} (h : (Instr.etc1Diff b).wf = true) :
    diffFields (encodeDiff b) = b := by
  simp only [Instr.wf, Bool.and_eq_true] at h
  obtain ⟨⟨hr, hg⟩, hb⟩ := h
  simp (disch := decide) only [diffFields, encodeDiff, BitVec.getLsbD_eq_extractLsb',
    BitVec.extractLsb'_append_eq_of_le, BitVec.extractLsb'_append_eq_of_add_le]
  simp [sext3_ofInt hr, sext3_ofInt hg, sext3_ofInt hb]

theorem encodeDiff_formatBit (b : DiffBlock) : (encodeDiff b).getLsbD 33 = true := by
  simp only [encodeDiff, BitVec.getLsbD_append]
  simp

theorem encodeInd_indFields {blk : Block} (h : blk.getLsbD 33 = false) : encodeInd (indFields blk) = blk := by
  have hformat : blk.extractLsb' 33 1 = 0#1 := by rw [← ofBool_getLsbD, h]; rfl
  simp only [encodeInd, indFields, ← hformat, ofBool_getLsbD,
    BitVec.extractLsb'_append_extractLsb'_eq_extractLsb', BitVec.extractLsb'_eq_self]

theorem encodeDiff_diffFields {blk : Block} (h : blk.getLsbD 33 = true) : encodeDiff (diffFields blk) = blk := by
  have hformat : blk.extractLsb' 33 1 = 1#1 := by rw [← ofBool_getLsbD, h]; rfl
  simp only [encodeDiff, diffFields, ← hformat, ofBool_getLsbD, ofInt_sext3,
    BitVec.extractLsb'_append_extractLsb'_eq_extractLsb', BitVec.extractLsb'_eq_self]

theorem diffFields_wf (blk : Block) : (Instr.etc1Diff (diffFields blk)).wf = true := by
  simp [Instr.wf, diffFields, deltaInRange_sext3]

/-! ### The round trips, and what the encodings say -/

theorem decodeBlock_encodeInd (b : IndBlock) : decodeBlock (encodeInd b) = .etc1Individual b := by
  simp only [decodeBlock, encodeInd_formatBit, indFields_encodeInd, Bool.false_eq_true, if_false]

theorem decodeBlock_encodeDiff {b : DiffBlock} (h : (Instr.etc1Diff b).wf = true) :
    decodeBlock (encodeDiff b) = .etc1Diff b := by
  simp only [decodeBlock, encodeDiff_formatBit, diffFields_encodeDiff h, if_true]

/-- Settles O7: row by row; a delta comes back because its range is all its well-formedness asks. -/
theorem decodeEncodeAgree : Obligations.DecodeEncodeAgree := by
  intro i hwf
  cases i with
  | init => rfl
  | compress q d => exact (decode_commandBytes _).trans (decodeCommand_compressWord q d)
  | decompress a => exact (decode_commandBytes _).trans (decodeCommand_decompressWord a)
  | etc1Individual b => exact (decode_blockBytes _).trans (congrArg _ (decodeBlock_encodeInd b))
  | etc1Diff b => exact (decode_blockBytes _).trans (congrArg _ (decodeBlock_encodeDiff hwf))

theorem decodeBlock_wf (blk : Block) : (decodeBlock blk).wf = true := by
  unfold decodeBlock
  split
  · exact diffFields_wf blk
  · rfl

theorem encode_decodeBlock (blk : Block) : encode (decodeBlock blk) = blockBytes blk := by
  unfold decodeBlock
  split <;> rename_i hformat
  · exact congrArg blockBytes (encodeDiff_diffFields hformat)
  · exact congrArg blockBytes (encodeInd_indFields (Bool.eq_false_iff.mpr hformat))

/-- Settles O8: bytes that decode are those of a legal word or of a block. -/
theorem encodeDecodedBytesAgree : Obligations.EncodeDecodedBytesAgree := by
  intro bytes i h
  rcases (decode_eq_ok_iff bytes i).mp h with ⟨w, rfl, hw⟩ | ⟨blk, rfl, rfl⟩
  · rcases (decodeCommand_eq_ok_iff w i).mp hw with ⟨rfl, rfl⟩ | ⟨q, d, rfl, rfl⟩ | ⟨a, rfl, rfl⟩ <;>
      exact ⟨rfl, rfl⟩
  · exact ⟨decodeBlock_wf blk, encode_decodeBlock blk⟩

theorem compressWord_eq_or (q : BitVec 2) (d : BitVec 1) :
    compressWord q (d == 1#1) = 0x00000002#32 ||| (q.setWidth 32 <<< 4) ||| (d.setWidth 32 <<< 6) := by
  revert q d; decide

theorem decompressWord_eq_or (a : BitVec 1) :
    decompressWord (a == 1#1) = 0x00000003#32 ||| (a.setWidth 32 <<< 7) := by
  revert a; decide

theorem exists_bool_iff_exists_bit {p : Bool → Prop} : (∃ b, p b) ↔ ∃ v : BitVec 1, p (v == 1#1) :=
  ⟨fun ⟨b, hb⟩ => ⟨BitVec.ofBool b, by simpa using hb⟩, fun ⟨_, hv⟩ => ⟨_, hv⟩⟩

/-- Settles O9: R30's shifts build the encoder's words. -/
theorem legalCommandWordsExactly : Obligations.LegalCommandWordsExactly := by
  refine ⟨fun w i => ?_, fun w => decodeCommand_eq_error⟩
  simp only [decodeCommand_eq_ok_iff, initWord, exists_bool_iff_exists_bit, compressWord_eq_or, decompressWord_eq_or]

/-- Settles O10: the two formats are the branches of `decodeBlock`. -/
theorem blockFieldPositions : Obligations.BlockFieldPositions := by
  intro blk
  rw [decode_blockBytes]
  constructor <;> intro hformat
  · simp only [decodeBlock, hformat, indFields, Bool.false_eq_true, if_false]
  · simp only [decodeBlock, hformat, diffFields, sext3_eq_toInt, if_true]

/-- Settles O11: each word by evaluation. -/
theorem writtenOutWordsDecode : Obligations.WrittenOutWordsDecode :=
  ⟨rfl, rfl, rfl, rfl, rfl, rfl⟩

/-! ### Expansion of codes (R35) -/

/-- Settles O6: the formulas are the definition; the replication of bits is checked for all 16 and 32
codes. -/
theorem colourExpansionReplicatesBits : Obligations.ColourExpansionReplicatesBits := by
  refine ⟨fun c => ⟨?_, rfl⟩, fun c => ⟨?_, rfl⟩⟩
  · revert c; decide
  · revert c; decide

/-! ### The step of a DECOMPRESS as the decoded block -/

/-- R37: the format bit picks the same row for the decoder as for DECOMPRESS. -/
theorem exec_decodeBlock (blk : Block) (s : State) : exec (decodeBlock blk) s = runBlock blk s := by
  unfold decodeBlock runBlock
  split <;> rfl

theorem execDecompress_of_runBlock {s u : State} (a : Bool) (hinit : s.status.initDone = true)
    (h : runBlock (readBlock s) s = .next u) : execDecompress a s = .next (finishDecompress a u) := by
  simp [execDecompress, hinit, h]

/-- Settles O57: the access is a legal DECOMPRESS, and its block stage is the decoded row. -/
theorem stepRunsDecodedBlock : Obligations.StepRunsDecodedBlock := by
  refine ⟨readBlock_of_written, fun s u a rest i hq hinit hd hexec => ?_⟩
  obtain rfl : decodeBlock (readBlock s) = i := Except.ok.inj ((decode_blockBytes _).symm.trans hd)
  rw [exec_decodeBlock] at hexec
  rw [step_of_queue hq, performEvent_write_cmd, runCommand_of_decodes (decodeCommand_decompressWord a)]
  exact execDecompress_of_runBlock a hinit hexec

/-! ### Sums over a subblock (R50, R78) -/

/-- R33: a sum over the pixels of a subblock, as a sum over the tile. -/
theorem sum_map_members (flip : Bool) (sub : Sub) (f : Fin 16 → Int) :
    ((members flip sub).map f).sum = ∑ i : Fin 16, if subOf flip i = sub then f i else 0 := by
  have hall : List.finRange 16 = pixelNumbers := by decide
  rw [Fin.sum_univ_def, hall, List.sum_map_ite]
  simp [members, Bool.beq_eq_decide_eq]

theorem subOf_eq_iff (flip : Bool) (i : Fin 16) (sub : Sub) :
    ((if flip then i.val / 4 < 2 else i.val % 4 < 2) ↔ sub = .one) ↔ subOf flip i = sub := by
  cases flip <;> cases sub <;> simp [subOf]

theorem channelSums_subPixels (d : Tile) (flip : Bool) (sub : Sub) :
    channelSums (subPixels d flip sub) = {
      r := ∑ i : Fin 16, if subOf flip i = sub then d[i].r else 0
      g := ∑ i : Fin 16, if subOf flip i = sub then d[i].g else 0
      b := ∑ i : Fin 16, if subOf flip i = sub then d[i].b else 0 } := by
  simp only [channelSums, subPixels, List.map_map, sum_map_members, Function.comp_apply]

/-- R78: with the k of each pixel in the order of the subblock's pixels. -/
theorem residualSums_subPixels (tables : ModTable) (d : Tile) (flip : Bool) (sub : Sub) {c : SubChoice}
    {k : Fin 16 → BitVec 2} (hks : c.ks = (members flip sub).map k) :
    residualSums tables (subPixels d flip sub) c = {
      r := ∑ i : Fin 16, if subOf flip i = sub then d[i].r - modEntry tables c.table (k i) else 0
      g := ∑ i : Fin 16, if subOf flip i = sub then d[i].g - modEntry tables c.table (k i) else 0
      b := ∑ i : Fin 16, if subOf flip i = sub then d[i].b - modEntry tables c.table (k i) else 0 } := by
  simp only [residualSums, channelSums, subPixels, hks, List.zip_map', List.map_map, sum_map_members,
    Function.comp_apply]

/-! ### Their ranges (R58) -/

/-- Every channel of a triple is in a range. -/
def ChannelsIn (lo hi : Int) (p : Rgb) : Prop := ∀ v ∈ [p.r, p.g, p.b], lo ≤ v ∧ v ≤ hi

theorem channelsIn_iff (lo hi : Int) (p : Rgb) :
    ChannelsIn lo hi p ↔ (lo ≤ p.r ∧ p.r ≤ hi) ∧ (lo ≤ p.g ∧ p.g ≤ hi) ∧ lo ≤ p.b ∧ p.b ≤ hi := by
  simp [ChannelsIn]

theorem sum_map_range {α : Type} {f : α → Int} {lo hi : Int} {l : List α} (hlen : l.length ≤ 8) (hlo : lo ≤ 0)
    (hhi : 0 ≤ hi) (h : ∀ x ∈ l, lo ≤ f x ∧ f x ≤ hi) : 8 * lo ≤ (l.map f).sum ∧ (l.map f).sum ≤ 8 * hi := by
  have hbelow := List.card_nsmul_le_sum (l.map f) lo (by simpa using fun x hx => (h x hx).1)
  have habove := List.sum_le_card_nsmul (l.map f) hi (by simpa using fun x hx => (h x hx).2)
  rw [List.length_map, nsmul_eq_mul] at hbelow habove
  have hlen : (l.length : Int) ≤ 8 := by exact_mod_cast hlen
  constructor <;> nlinarith

/-- R50: the sums of at most 8 pixels. -/
theorem channelSums_range {lo hi : Int} {pixels : List Rgb} (hlen : pixels.length ≤ 8) (hlo : lo ≤ 0)
    (hhi : 0 ≤ hi) (h : ∀ p ∈ pixels, ChannelsIn lo hi p) : ChannelsIn (8 * lo) (8 * hi) (channelSums pixels) := by
  simp only [channelsIn_iff] at h ⊢
  exact ⟨sum_map_range hlen hlo hhi fun p hp => (h p hp).1, sum_map_range hlen hlo hhi fun p hp => (h p hp).2.1,
    sum_map_range hlen hlo hhi fun p hp => (h p hp).2.2⟩

/-- R40: no magnitude exceeds 183. -/
theorem modEntry_range (t : BitVec 3) (k : BitVec 2) :
    -183 ≤ modEntry modConstants t k ∧ modEntry modConstants t k ≤ 183 := by
  revert t k; decide

/-- R58, R78: of pixels in [0, 255], whatever table and indices were chosen. -/
theorem residualSums_range {pixels : List Rgb} (hlen : pixels.length ≤ 8)
    (h : ∀ p ∈ pixels, ChannelsIn 0 255 p) (c : SubChoice) :
    ChannelsIn (8 * -183) (8 * 438) (residualSums modConstants pixels c) := by
  refine channelSums_range ?_ (by decide) (by decide) fun p hp => ?_
  · simp [hlen]
  · obtain ⟨⟨pixel, k⟩, hmem, rfl⟩ := List.mem_map.mp hp
    obtain ⟨hr, hg, hb⟩ := (channelsIn_iff _ _ _).mp (h pixel (List.of_mem_zip hmem).1)
    have hm := modEntry_range c.table k
    rw [channelsIn_iff]
    dsimp only
    omega

theorem subPixels_channelsIn {lo hi : Int} {d : Tile} (h : ∀ i : Fin 16, ChannelsIn lo hi d[i]) (flip : Bool)
    (sub : Sub) : ∀ p ∈ subPixels d flip sub, ChannelsIn lo hi p := by
  intro p hp
  obtain ⟨i, -, rfl⟩ := List.mem_map.mp hp
  exact h i

/-- Settles O32: the statement's membership test is `subOf`, and -1464 and 3504 are eight times the bounds
0 - 183 and 255 + 183 of one pixel. -/
theorem channelSumRanges : Obligations.ChannelSumRanges := by
  intro d flip sub
  simp only [subOf_eq_iff]
  refine ⟨channelSums_subPixels d flip sub, fun tables c k hks => residualSums_subPixels tables d flip sub hks,
    fun c hpixels => ?_⟩
  have hlen : (subPixels d flip sub).length ≤ 8 := (subPixels_length d flip sub).le
  have hin : ∀ p ∈ subPixels d flip sub, ChannelsIn 0 255 p :=
    subPixels_channelsIn (fun i => (channelsIn_iff _ _ _).mpr (by simpa [and_assoc] using hpixels i)) flip sub
  exact ⟨channelSums_range hlen le_rfl (by decide) hin, residualSums_range hlen hin c⟩

end Sys2Proof.Machine
end

section
/-!
PROOF. Statements of the table store and INIT: the entries of the store (R40, R41), INIT and the illegal words
of its opcode (R43, R121), and the reconstruction of a pixel (R44).
-/

namespace Sys2Proof.Machine

/-! ### The modifier-table store (R41) -/

/-- Settles O5: both sides are constant tables, compared for each of the eight values of t. -/
theorem modifierTableEntries : Obligations.ModifierTableEntries := by
  unfold Obligations.ModifierTableEntries
  decide

/-! ### INIT (R43) -/

theorem compressWord_opcode (q : BitVec 2) (d : Bool) : (compressWord q d).extractLsb' 0 4 = 2#4 := by
  revert q d; decide

theorem decompressWord_opcode (a : Bool) : (decompressWord a).extractLsb' 0 4 = 3#4 := by
  revert a; decide

/-- R30: INIT's is the one legal word with the opcode 1. -/
theorem decodeCommand_ne_ok_of_initOpcode {w : Word} (hop : w.extractLsb' 0 4 = 1#4) (hne : w ≠ 0x00000001#32)
    (i : Instr) : decodeCommand w ≠ .ok i := by
  rw [ne_eq, decodeCommand_eq_ok_iff]
  rintro (⟨-, rfl⟩ | ⟨q, d, -, rfl⟩ | ⟨a, -, rfl⟩)
  · exact hne rfl
  · rw [compressWord_opcode] at hop
    exact absurd hop (by decide)
  · rw [decompressWord_opcode] at hop
    exact absurd hop (by decide)

theorem runCommand_of_illegal {w : Word} (h : ∀ i, decodeCommand w ≠ .ok i) (s : State) :
    runCommand w s = .next (s.raiseError .illegalCommand) := by
  simp [runCommand, decodeCommand_eq_error h]

theorem exec_init (s : State) : exec .init s = .next s.markInitDone.commandDone := rfl

/-- Settles O29: the write to CMD runs its word, which is INIT's own or, at any other with the opcode 1, none
of the decoder's. -/
theorem initSetsInitDoneOnly : Obligations.InitSetsInitDoneOnly := by
  refine ⟨exec_init, fun s => ?_, fun s w hop hne => ?_⟩
  · rw [performEvent_write_cmd, runCommand_of_decodes ((decodeCommand_eq_init_iff _).mpr rfl)]
  · rw [performEvent_write_cmd, runCommand_of_illegal (decodeCommand_ne_ok_of_initOpcode hop hne)]
    rfl

/-! ### Reconstruction (R44) -/

theorem clamp_eq_max_min {lo hi : Int} (h : lo ≤ hi) (v : Int) : clamp v lo hi = max lo (min hi v) := by
  unfold clamp
  split_ifs <;> omega

theorem clamp_mem_range {lo hi : Int} (h : lo ≤ hi) (v : Int) : lo ≤ clamp v lo hi ∧ clamp v lo hi ≤ hi := by
  rw [clamp_eq_max_min h]
  omega

/-- R44: whatever the base and the tables are. -/
theorem recon_channelsIn (tables : ModTable) (base : Rgb) (t : BitVec 3) (k : BitVec 2) :
    ChannelsIn 0 255 (recon tables base t k) :=
  (channelsIn_iff _ _ _).mpr ⟨clamp_mem_range (by decide) _, clamp_mem_range (by decide) _,
    clamp_mem_range (by decide) _⟩

/-- Settles O33: -183 and 438 are the bounds 0 - 183 and 255 + 183. -/
theorem reconstructionClampsEachChannel : Obligations.ReconstructionClampsEachChannel := by
  refine ⟨fun tables base t k => ⟨?_, recon_channelsIn tables base t k⟩, fun v t k hlo hhi => ?_⟩
  · simp only [recon, clamp_eq_max_min (show (0 : Int) ≤ 255 by decide)]
  · have hentry := modEntry_range t k
    omega

end Sys2Proof.Machine
end

section
/-!
PROOF. Statements of the colour quantizer: the code of the nearest level and individual mode's closed form
(R51), and the candidate lists of the three qualities (R55, R56).
-/

namespace Sys2Proof.Machine

/-! ### The nearest level (R51) -/

/-- R8: in an ascending list, a tie goes to the smaller element. -/
theorem argmin_lt_of_lt {α : Type} [Preorder α] (f : α → Int) {a x : α} {l : List α}
    (hsorted : (a :: l).Pairwise (· < ·)) (hx : x ∈ a :: l) (hlt : x < argmin f a l) :
    f (argmin f a l) < f x := by
  obtain ⟨before, after, hsplit, hbefore, -⟩ := argmin_split f a l
  rw [hsplit] at hx hsorted
  rcases List.mem_append.mp hx with hx | hx
  · exact hbefore x hx
  · have hafter := (List.pairwise_cons.mp (List.pairwise_append.mp hsorted).2.1).1
    rcases List.mem_cons.mp hx with rfl | hx
    · exact absurd hlt (lt_irrefl _)
    · exact absurd hlt (hafter x hx).asymm

theorem codes_ascending (m : Mode) : ((0 : Int) :: codesAbove0 m).Pairwise (· < ·) := by
  cases m <;> decide

theorem levelDistance_eq_abs (m : Mode) (total c : Int) : levelDistance m total c = |8 * expand m c - total| :=
  Int.natCast_natAbs _

theorem quantize_nearest (total : Int) (m : Mode) {c : Int} (h0 : 0 ≤ c) (h1 : c ≤ maxCode m) :
    levelDistance m total (quantize total m) ≤ levelDistance m total c :=
  argmin_le_of_mem _ _ _ ((mem_codes m c).mpr ⟨h0, h1⟩)

theorem quantize_first (total : Int) (m : Mode) {c : Int} (h0 : 0 ≤ c) (hlt : c < quantize total m) :
    levelDistance m total (quantize total m) < levelDistance m total c :=
  have h1 : c ≤ maxCode m := hlt.le.trans (quantize_range total m).2
  argmin_lt_of_lt _ (codes_ascending m) ((mem_codes m c).mpr ⟨h0, h1⟩) hlt

theorem levelDistance_ind (total c : Int) : levelDistance .ind total c = ((136 * c - total).natAbs : Int) := by
  simp only [levelDistance, expand, expand4, ← Int.mul_assoc, Int.reduceMul]

/-- R51: individual mode's levels lie 136 apart on the scale of a total, and the middle between two, 68 above
the lower, still rounds to the lower. -/
theorem quantize_ind (total : Int) : quantize total .ind = clamp ((total + 67) / 136) 0 15 := by
  obtain ⟨hq0, hq15⟩ : 0 ≤ quantize total .ind ∧ quantize total .ind ≤ 15 := quantize_range total .ind
  obtain ⟨hv0, hv15⟩ := clamp_mem_range (show (0 : Int) ≤ 15 by decide) ((total + 67) / 136)
  have hv := clamp_eq_max_min (show (0 : Int) ≤ 15 by decide) ((total + 67) / 136)
  generalize clamp ((total + 67) / 136) 0 15 = v at hv0 hv15 hv ⊢
  have hnearest := quantize_nearest total .ind hv0 hv15
  have hfirst := quantize_first total .ind hv0
  simp only [levelDistance_ind] at hnearest hfirst
  rcases lt_trichotomy (quantize total .ind) v with hlt | heq | hgt
  · omega
  · exact heq
  · have hstrict := hfirst hgt
    omega

/-- Settles O30: `quantize` is the first minimum over the ascending codes of the mode. -/
theorem quantizePicksNearestLevel : Obligations.QuantizePicksNearestLevel := by
  refine ⟨fun total m => ?_, rfl, rfl, quantize_ind⟩
  obtain ⟨hmin, hmax⟩ := quantize_range total m
  simp only [← levelDistance_eq_abs]
  exact ⟨hmin, hmax, fun c h0 h1 => ⟨quantize_nearest total m h0 h1, quantize_first total m h0⟩⟩

/-! ### The candidate lists (R55, R56) -/

/-- R56: lexicographic order of triples, red most significant. -/
abbrev LexBefore (x y : Rgb) : Prop := x.r < y.r ∨ (x.r = y.r ∧ (x.g < y.g ∨ (x.g = y.g ∧ x.b < y.b)))

theorem neighbourhood_ascending : neighbourhood.Pairwise LexBefore := by decide

theorem mem_offsets (v : Int) : v ∈ offsets ↔ |v| ≤ 1 := by
  simp only [offsets, List.mem_cons, List.not_mem_nil, or_false, abs_le]
  omega

theorem mem_neighbourhood (d : Rgb) :
    d ∈ neighbourhood ↔ d ≠ ⟨0, 0, 0⟩ ∧ |d.r| ≤ 1 ∧ |d.g| ≤ 1 ∧ |d.b| ≤ 1 := by
  obtain ⟨r, g, b⟩ := d
  simp [neighbourhood, mem_offsets, and_comm]

theorem shift_lexBefore_iff (c x y : Rgb) : LexBefore (shift c x) (shift c y) ↔ LexBefore x y := by
  simp [LexBefore, shift]

/-- R56: a triple is reached from c by its difference to c, and by no other offset. -/
theorem shift_eq_iff (c d x : Rgb) : shift c d = x ↔ d = ⟨x.r - c.r, x.g - c.g, x.b - c.b⟩ := by
  obtain ⟨r, g, b⟩ := d
  obtain ⟨x, y, z⟩ := x
  simp only [shift, Rgb.mk.injEq]
  omega

theorem shift_zero (c : Rgb) : shift c ⟨0, 0, 0⟩ = c := by
  simp [shift]

theorem mem_neighbours_high (m : Mode) (c x : Rgb) :
    x ∈ neighbours .high m c ↔
      x ≠ c ∧ rgbInRange m x = true ∧ |x.r - c.r| ≤ 1 ∧ |x.g - c.g| ≤ 1 ∧ |x.b - c.b| ≤ 1 := by
  have hzero : (⟨x.r - c.r, x.g - c.g, x.b - c.b⟩ : Rgb) = ⟨0, 0, 0⟩ ↔ x = c := by
    rw [eq_comm, ← shift_eq_iff, shift_zero, eq_comm]
  simp only [neighbours, List.mem_filter, List.mem_map, shift_eq_iff, exists_eq_right, mem_neighbourhood,
    ne_eq, hzero]
  tauto

theorem neighbours_high_length_le (m : Mode) (c : Rgb) : (neighbours .high m c).length ≤ 26 :=
  calc (neighbours .high m c).length
    _ ≤ (neighbourhood.map (shift c)).length := List.length_filter_le _ _
    _ = neighbourhood.length := List.length_map _
    _ = 26 := by decide

theorem neighbours_high_ascending (m : Mode) (c : Rgb) : (neighbours .high m c).Pairwise LexBefore :=
  have hshifted : (neighbourhood.map (shift c)).Pairwise LexBefore :=
    List.pairwise_map.mpr (neighbourhood_ascending.imp (shift_lexBefore_iff c _ _).mpr)
  hshifted.filter _

/-- Settles O31: the candidates after the first are `neighbours`, empty below high. -/
theorem candidateListsAreTheNeighbourhood : Obligations.CandidateListsAreTheNeighbourhood := by
  intro m c _
  exact ⟨rfl, rfl, neighbours .high m c, rfl, neighbours_high_length_le m c, mem_neighbours_high m c,
    neighbours_high_ascending m c⟩

end Sys2Proof.Machine
end

section
/-!
PROOF. Statements of the table selector: the choice of index and of table as first minima (R61, R63), the
error of the choice against every other assignment of indices (R62, R64), and the ranges of the errors
(R60, R62, R65).
-/

namespace Sys2Proof.Machine

/-! ### First minima over the indices and the tables (R61, R63) -/

/-- R8: bit vectors are ordered by their values. -/
theorem argmin_lt_of_bitVec_lt {w : Nat} (f : BitVec w → Int) {a x : BitVec w} {l : List (BitVec w)}
    (hsorted : (a :: l).Pairwise (· < ·)) (hx : x ∈ a :: l) (hlt : x < argmin f a l) :
    f (argmin f a l) < f x :=
  letI : Preorder (BitVec w) := Preorder.lift BitVec.toNat
  argmin_lt_of_lt f hsorted hx hlt

theorem mem_indices (k : BitVec 2) : k ∈ [0#2, 1#2, 2#2, 3#2] := by
  revert k; decide

theorem indices_ascending : [0#2, 1#2, 2#2, 3#2].Pairwise (· < ·) := by decide

theorem mem_tableNumbers (t : BitVec 3) : t ∈ [0#3, 1#3, 2#3, 3#3, 4#3, 5#3, 6#3, 7#3] := by
  revert t; decide

theorem tableNumbers_ascending : [0#3, 1#3, 2#3, 3#3, 4#3, 5#3, 6#3, 7#3].Pairwise (· < ·) := by decide

theorem pixelError_bestIndex_le (tables : ModTable) (base : Rgb) (t : BitVec 3) (p : Rgb) (k : BitVec 2) :
    pixelError tables base t (bestIndex tables base t p) p ≤ pixelError tables base t k p :=
  argmin_le_of_mem (fun k => pixelError tables base t k p) _ _ (mem_indices k)

theorem pixelError_bestIndex_lt {tables : ModTable} {base : Rgb} {t : BitVec 3} {p : Rgb} {k : BitVec 2}
    (h : k < bestIndex tables base t p) :
    pixelError tables base t (bestIndex tables base t p) p < pixelError tables base t k p :=
  argmin_lt_of_bitVec_lt (fun k => pixelError tables base t k p) indices_ascending (mem_indices k) h

theorem tableError_bestTable_le (tables : ModTable) (base : Rgb) (pixels : List Rgb) (t : BitVec 3) :
    tableError tables base (bestTable tables base pixels) pixels ≤ tableError tables base t pixels :=
  argmin_le_of_mem (fun t => tableError tables base t pixels) _ _ (mem_tableNumbers t)

theorem tableError_bestTable_lt {tables : ModTable} {base : Rgb} {pixels : List Rgb} {t : BitVec 3}
    (h : t < bestTable tables base pixels) :
    tableError tables base (bestTable tables base pixels) pixels < tableError tables base t pixels :=
  argmin_lt_of_bitVec_lt (fun t => tableError tables base t pixels) tableNumbers_ascending (mem_tableNumbers t) h

/-- Settles O34: both choices are first minima of ascending lists that hold every index and every table. -/
theorem selectorPicksFirstMinimum : Obligations.SelectorPicksFirstMinimum := fun tables base =>
  ⟨fun t p k => ⟨pixelError_bestIndex_le tables base t p k, pixelError_bestIndex_lt⟩,
    fun pixels t => ⟨tableError_bestTable_le tables base pixels t, tableError_bestTable_lt⟩⟩

/-! ### The error of an assignment of indices (R62, R64) -/

/-- The accumulated error of a table when the pixels take the indices ks instead of their best ones. -/
def assignedError (tables : ModTable) (base : Rgb) (t : BitVec 3) (pixels : List Rgb) (ks : List (BitVec 2)) : Int :=
  (List.zipWith (fun p k => pixelError tables base t k p) pixels ks).sum

theorem tableError_eq_assignedError (tables : ModTable) (base : Rgb) (t : BitVec 3) (pixels : List Rgb) :
    tableError tables base t pixels =
      assignedError tables base t pixels (pixels.map (bestIndex tables base t)) := by
  simp only [tableError, assignedError, List.zipWith_map_right, List.zipWith_self]

/-- R62: pixel by pixel, no index beats the best one. -/
theorem tableError_le_assignedError (tables : ModTable) (base : Rgb) (t : BitVec 3) {pixels : List Rgb}
    {ks : List (BitVec 2)} (hlen : ks.length = pixels.length) :
    tableError tables base t pixels ≤ assignedError tables base t pixels ks := by
  induction pixels generalizing ks with
  | nil => simp [tableError, assignedError]
  | cons p rest ih =>
    obtain ⟨k, ks, rfl⟩ := List.exists_cons_of_length_eq_add_one hlen
    have hpixel := pixelError_bestIndex_le tables base t p k
    have hrest := ih (Nat.succ.inj hlen)
    simp only [tableError, assignedError, List.map_cons, List.zipWith_cons_cons, List.sum_cons] at hrest ⊢
    exact Int.add_le_add hpixel hrest

/-- Settles O35: the chosen table beats table t at t's best indices, and those beat every other assignment. -/
theorem selectedErrorIsLeast : Obligations.SelectedErrorIsLeast := by
  intro tables pixels m code s errorWith
  have hreported : s.err = errorWith s.table s.ks := tableError_eq_assignedError _ _ _ _
  refine ⟨rfl, select_ks_length tables pixels m code, hreported, fun t ks hlen => ?_⟩
  calc s.err
    _ ≤ tableError tables (expandRgb m code) t pixels := tableError_bestTable_le _ _ _ _
    _ ≤ errorWith t ks := tableError_le_assignedError _ _ _ hlen

/-! ### The ranges of the errors (R60, R62, R65) -/

theorem sq_sub_range {hi x y : Int} (hx : 0 ≤ x ∧ x ≤ hi) (hy : 0 ≤ y ∧ y ≤ hi) :
    0 ≤ (x - y) ^ 2 ∧ (x - y) ^ 2 ≤ hi ^ 2 :=
  ⟨sq_nonneg _, sq_le_sq' (by omega) (by omega)⟩

/-- R60: whatever the base and the tables are, the reconstruction is in [0, 255], and 195075 is 3 · 255². -/
theorem pixelError_range (tables : ModTable) (base : Rgb) (t : BitVec 3) (k : BitVec 2) {p : Rgb}
    (hp : ChannelsIn 0 255 p) :
    0 ≤ pixelError tables base t k p ∧ pixelError tables base t k p ≤ 195075 := by
  obtain ⟨hr, hg, hb⟩ := (channelsIn_iff _ _ _).mp (recon_channelsIn tables base t k)
  obtain ⟨hpr, hpg, hpb⟩ := (channelsIn_iff _ _ _).mp hp
  have hred := sq_sub_range hr hpr
  have hgreen := sq_sub_range hg hpg
  have hblue := sq_sub_range hb hpb
  simp only [pixelError, squaredError]
  omega

/-- R62: of at most 8 pixels. -/
theorem tableError_range (tables : ModTable) (base : Rgb) (t : BitVec 3) {pixels : List Rgb}
    (hlen : pixels.length ≤ 8) (hp : ∀ p ∈ pixels, ChannelsIn 0 255 p) :
    0 ≤ tableError tables base t pixels ∧ tableError tables base t pixels ≤ 1560600 :=
  sum_map_range hlen le_rfl (by decide) fun p hmem => pixelError_range tables base t _ (hp p hmem)

/-- Settles O36: the statement's range of a pixel is `ChannelsIn 0 255`. -/
theorem selectorErrorRanges : Obligations.SelectorErrorRanges := by
  intro tables base t inRange
  have hchannels : ∀ p : Rgb, inRange p → ChannelsIn 0 255 p := fun p hp =>
    (channelsIn_iff _ _ _).mpr (by simpa [inRange, and_assoc] using hp)
  exact ⟨fun k p hp => pixelError_range tables base t k (hchannels p hp),
    fun pixels hlen hp => tableError_range tables base t hlen.le fun p hmem => hchannels p (hp p hmem)⟩

end Sys2Proof.Machine
end

section
/-!
PROOF. Statements of the encoder's search: the first least combination (R73, R77), the refinement (R78), and
the order of the qualities and of the modes by total error (R81, R82).
-/

namespace Sys2Proof.Machine

/-! ### The first combination of least total (R73, R77) -/

/-- `firstMin_split` for the elements that a partial function answers, by the elements themselves. -/
theorem firstMin_filterMap_split {α β : Type} {f : β → Int} {g : α → Option β} {l : List α} {best : β}
    (h : firstMin f (l.filterMap g) = some best) :
    ∃ before x after, l = before ++ x :: after ∧ g x = some best ∧
      (∀ y ∈ before, ∀ c, g y = some c → f best < f c) ∧ ∀ y ∈ after, ∀ c, g y = some c → f best ≤ f c := by
  obtain ⟨pre, post, hsplit, hpre, hpost⟩ := firstMin_split h
  obtain ⟨before, rest, rfl, rfl, hrest⟩ := List.filterMap_eq_append_iff.mp hsplit
  obtain ⟨skipped, x, after, rfl, hskipped, hx, rfl⟩ := List.filterMap_eq_cons_iff.mp hrest
  refine ⟨before ++ skipped, x, after, by simp, hx, fun y hy c hc => ?_, fun y hy c hc => ?_⟩
  · rcases List.mem_append.mp hy with hy | hy
    · exact hpre c (List.mem_filterMap.mpr ⟨y, hy, hc⟩)
    · rw [hskipped y hy] at hc
      cases hc
  · exact hpost c (List.mem_filterMap.mpr ⟨y, hy, hc⟩)

@[simp] theorem evaluate_ind (tables : ModTable) (d : Tile) (q : Quality) (flip : Bool) :
    evaluate tables d q (.ind, flip) = some (evaluateInd tables d q flip) := rfl

@[simp] theorem evaluate_dif (tables : ModTable) (d : Tile) (q : Quality) (flip : Bool) :
    evaluate tables d q (.dif, flip) = evaluateDif tables d q flip := rfl

theorem evaluateDif_eq_some {tables : ModTable} {d : Tile} {q : Quality} {flip : Bool} {c : Configuration}
    (h : evaluateDif tables d q flip = some c) :
    ∃ ab ∈ codePairs d q flip, c = difConfiguration tables d flip ab := by
  obtain ⟨before, ab, after, hsplit, hc, -⟩ := evaluateDif_split h
  exact ⟨ab, by simp [hsplit], hc⟩

/-- A configuration stands for the combination it was evaluated for. -/
theorem evaluate_combo {tables : ModTable} {d : Tile} {q : Quality} {combo : Mode × Bool} {c : Configuration}
    (h : evaluate tables d q combo = some c) : (c.mode, c.flip) = combo := by
  obtain ⟨m, flip⟩ := combo
  cases m with
  | ind =>
    rw [evaluate_ind, Option.some.injEq] at h
    rw [← h]; rfl
  | dif =>
    rw [evaluate_dif] at h
    obtain ⟨ab, -, rfl⟩ := evaluateDif_eq_some h
    rfl

/-- R77: the search answers the combination at which it splits R73's list. -/
theorem search_split (tables : ModTable) (d : Tile) (q : Quality) :
    ∃ before chosen after, combos q = before ++ chosen :: after ∧
      evaluate tables d q chosen = some (search tables d q) ∧
      (∀ x ∈ before, ∀ c, evaluate tables d q x = some c → (search tables d q).total < c.total) ∧
      ∀ x ∈ after, ∀ c, evaluate tables d q x = some c → (search tables d q).total ≤ c.total :=
  firstMin_filterMap_split (search_eq_firstMin tables d q)

/-- Settles O38: the combinations with a configuration, in scan order, are the list the search minimises over. -/
theorem searchKeepsFirstLeastCombination : Obligations.SearchKeepsFirstLeastCombination := by
  refine ⟨rfl, rfl, rfl, fun tables d q => ?_⟩
  obtain ⟨before, chosen, after, hlist, hchosen, hbefore, hafter⟩ := search_split tables d q
  exact ⟨before, chosen, after, hlist, hchosen, evaluate_combo hchosen, hbefore, hafter⟩

/-! ### The refinement (R78) -/

/-- R78: the pass is kept where it is representable and strictly better. -/
theorem refine_eq_ite (tables : ModTable) (d : Tile) (best : Configuration) :
    let again := rederived tables d best
    refine tables d best =
      if (best.mode = .ind ∨ deltaOk again.sub1.code again.sub2.code = true) ∧ again.total < best.total then again
      else best := by
  intro again
  have hrefused : best.mode = .dif ∧ deltaOk again.sub1.code again.sub2.code = false ↔
      ¬(best.mode = .ind ∨ deltaOk again.sub1.code again.sub2.code = true) := by
    cases best.mode <;> simp
  by_cases hkept : best.mode = .ind ∨ deltaOk again.sub1.code again.sub2.code = true
  · exact (if_neg (not_not_intro hkept ∘ hrefused.mp)).trans (by simp only [hkept, true_and]; rfl)
  · exact (if_pos (hrefused.mpr hkept)).trans (if_neg (hkept ∘ And.left)).symm

/-- The refinement answers what it was given or a better representable configuration it derived. -/
theorem refine_cases (tables : ModTable) (d : Tile) (best : Configuration) :
    let again := rederived tables d best
    refine tables d best = best ∨
      refine tables d best = again ∧ (best.mode = .ind ∨ deltaOk again.sub1.code again.sub2.code = true) ∧
        again.total < best.total := by
  intro again
  rw [refine_eq_ite]
  split_ifs with htaken
  · exact .inr ⟨rfl, htaken⟩
  · exact .inl rfl

theorem refine_mode (tables : ModTable) (d : Tile) (best : Configuration) :
    (refine tables d best).mode = best.mode := by
  rcases refine_cases tables d best with h | ⟨h, -⟩
  · rw [h]
  · rw [h]; rfl

theorem refine_flip (tables : ModTable) (d : Tile) (best : Configuration) :
    (refine tables d best).flip = best.flip := by
  rcases refine_cases tables d best with h | ⟨h, -⟩
  · rw [h]
  · rw [h]; rfl

theorem refine_total_le (tables : ModTable) (d : Tile) (best : Configuration) :
    (refine tables d best).total ≤ best.total := by
  rcases refine_cases tables d best with h | ⟨h, -, hbetter⟩ <;> rw [h]
  exact hbetter.le

theorem refine_deltaOk (tables : ModTable) (d : Tile) {best : Configuration} (hmode : best.mode = .dif)
    (hok : deltaOk best.sub1.code best.sub2.code = true) :
    deltaOk (refine tables d best).sub1.code (refine tables d best).sub2.code = true := by
  rcases refine_cases tables d best with h | ⟨h, hkept, -⟩ <;> rw [h]
  · exact hok
  · exact hkept.resolve_left (by simp [hmode])

theorem subOf_eq_one_iff (flip : Bool) (i : Fin 16) :
    subOf flip i = .one ↔ if flip then i.val / 4 < 2 else i.val % 4 < 2 := by
  simp [← subOf_eq_iff]

theorem subOf_eq_two_iff (flip : Bool) (i : Fin 16) :
    subOf flip i = .two ↔ ¬if flip then i.val / 4 < 2 else i.val % 4 < 2 := by
  simp [← subOf_eq_iff]

theorem members_one (flip : Bool) :
    members flip .one = pixelNumbers.filter fun i => decide (if flip then i.val / 4 < 2 else i.val % 4 < 2) := by
  simp only [members, Bool.beq_eq_decide_eq, subOf_eq_one_iff]

theorem members_two (flip : Bool) :
    members flip .two = pixelNumbers.filter fun i => decide ¬if flip then i.val / 4 < 2 else i.val % 4 < 2 := by
  simp only [members, Bool.beq_eq_decide_eq, subOf_eq_two_iff]

/-- Settles O39: the subblocks of the statement are `subOf`'s, and the sums are those of
`residualSums_subPixels`. -/
theorem refinementNeverMakesWorse : Obligations.RefinementNeverMakesWorse := by
  intro tables d best
  refine ⟨refine_mode _ _ _, refine_flip _ _ _, refine_total_le _ _ _, refine_deltaOk _ _,
    fun htaken => (refine_eq_ite tables d best).trans (if_pos htaken),
    fun htaken => (refine_eq_ite tables d best).trans (if_neg htaken), rfl, rfl, ?_, ?_⟩
  · intro k hks
    rw [← members_one] at hks ⊢
    simp only [rederived, residualSums_subPixels tables d best.flip .one hks, subOf_eq_one_iff]
    rfl
  · intro k hks
    rw [← members_two] at hks ⊢
    simp only [rederived, residualSums_subPixels tables d best.flip .two hks, subOf_eq_two_iff, ite_not]
    rfl

/-! ### Totals by quality and by mode (R81, R82) -/

/-- R77: the search is at least as good as every representable combination of its list. -/
theorem search_total_le {tables : ModTable} {d : Tile} {q : Quality} {combo : Mode × Bool} {c : Configuration}
    (hcombo : combo ∈ combos q) (h : evaluate tables d q combo = some c) :
    (search tables d q).total ≤ c.total :=
  firstMin_le (search_eq_firstMin tables d q) (List.mem_filterMap.mpr ⟨combo, hcombo, h⟩)

/-- R75: a candidate pair that satisfies the delta constraint makes the combination representable, and the
combination is at least as good. -/
theorem evaluateDif_le_pair (tables : ModTable) {d : Tile} {q : Quality} {flip : Bool} {ab : Rgb × Rgb}
    (hab : ab ∈ codePairs d q flip) :
    ∃ c, evaluateDif tables d q flip = some c ∧ c.total ≤ (difConfiguration tables d flip ab).total := by
  cases hmin : firstMin (Configuration.total ∘ difConfiguration tables d flip) (codePairs d q flip) with
  | none =>
    rw [(firstMin_eq_none _ _).mp hmin] at hab
    cases hab
  | some best =>
    have hle := firstMin_le hmin hab
    refine ⟨difConfiguration tables d flip best, ?_, hle⟩
    rw [evaluateDif_eq_firstMin_codePairs, hmin, Option.map_some]

theorem argmin_evaluated_le (tables : ModTable) {pixels : List Rgb} {q : Quality} {m : Mode} {a : Rgb}
    (ha : a ∈ subCandidates q m pixels) :
    (argmin SubChoice.err (evaluated tables pixels q m).1 (evaluated tables pixels q m).2).err ≤
      (select tables pixels m a).err := by
  refine argmin_le_of_mem SubChoice.err _ _ ?_
  rw [evaluated_eq_map_select]
  exact List.mem_map_of_mem ha

/-- R74: an individual combination is at least as good as every choice of candidates for its subblocks. -/
theorem evaluateInd_total_le (tables : ModTable) {d : Tile} {q : Quality} {flip : Bool} {a b : Rgb}
    (ha : a ∈ subCandidates q .ind (subPixels d flip .one)) (hb : b ∈ subCandidates q .ind (subPixels d flip .two)) :
    (evaluateInd tables d q flip).total ≤
      (select tables (subPixels d flip .one) .ind a).err + (select tables (subPixels d flip .two) .ind b).err :=
  Int.add_le_add (argmin_evaluated_le tables ha) (argmin_evaluated_le tables hb)

/-- R55, R56: medium's one candidate is a candidate at high. -/
theorem mem_subCandidates_high {m : Mode} {pixels : List Rgb} {a : Rgb} (h : a ∈ subCandidates .medium m pixels) :
    a ∈ subCandidates .high m pixels := by
  rw [List.mem_singleton.mp h]
  exact List.mem_cons_self

theorem evaluateInd_high_le_medium (tables : ModTable) (d : Tile) (flip : Bool) :
    (evaluateInd tables d .high flip).total ≤ (evaluateInd tables d .medium flip).total :=
  evaluateInd_total_le tables (mem_subCandidates_high List.mem_cons_self) (mem_subCandidates_high List.mem_cons_self)

theorem mem_codePairs_high {d : Tile} {flip : Bool} {ab : Rgb × Rgb} (h : ab ∈ codePairs d .medium flip) :
    ab ∈ codePairs d .high flip := by
  obtain ⟨⟨ha, hb⟩, hok⟩ := mem_codePairs.mp h
  exact mem_codePairs.mpr ⟨⟨mem_subCandidates_high ha, mem_subCandidates_high hb⟩, hok⟩

/-- Every combination representable at medium is so at high, and no worse there. -/
theorem evaluate_high_le_medium {tables : ModTable} {d : Tile} {combo : Mode × Bool} {c : Configuration}
    (h : evaluate tables d .medium combo = some c) :
    ∃ c', evaluate tables d .high combo = some c' ∧ c'.total ≤ c.total := by
  obtain ⟨m, flip⟩ := combo
  cases m with
  | ind =>
    rw [evaluate_ind, Option.some.injEq] at h
    exact ⟨_, evaluate_ind .., h ▸ evaluateInd_high_le_medium tables d flip⟩
  | dif =>
    rw [evaluate_dif] at h
    obtain ⟨ab, hab, rfl⟩ := evaluateDif_eq_some h
    rw [evaluate_dif]
    exact evaluateDif_le_pair tables (mem_codePairs_high hab)

theorem search_high_le_medium (tables : ModTable) (d : Tile) :
    (search tables d .high).total ≤ (search tables d .medium).total := by
  obtain ⟨before, chosen, after, hlist, hchosen, -⟩ := search_split tables d .medium
  obtain ⟨c, hc, hle⟩ := evaluate_high_le_medium hchosen
  have hmem : chosen ∈ combos .high := by
    rw [show combos .high = combos .medium from rfl, hlist]
    simp
  exact (search_total_le hmem hc).trans hle

/-- R73: (IND, 0) is low's only combination. -/
theorem search_low (tables : ModTable) (d : Tile) : search tables d .low = evaluateInd tables d .low false := by
  simp only [search, combos, List.filterMap_cons, evaluate_ind, List.filterMap_nil, firstMin, argmin]

/-- R55: at medium the candidates are those of low. -/
theorem evaluateInd_medium (tables : ModTable) (d : Tile) (flip : Bool) :
    evaluateInd tables d .medium flip = evaluateInd tables d .low flip := rfl

/-- R73: low's one combination is in medium's list. -/
theorem search_medium_le_low (tables : ModTable) (d : Tile) :
    (search tables d .medium).total ≤ (search tables d .low).total := by
  have hmem : (Mode.ind, false) ∈ combos .medium := by decide
  have hle := search_total_le hmem (evaluate_ind tables d .medium false)
  rwa [evaluateInd_medium, ← search_low] at hle

theorem chooseConfiguration_low (tables : ModTable) (d : Tile) :
    chooseConfiguration tables d .low = search tables d .low := rfl

theorem chooseConfiguration_medium (tables : ModTable) (d : Tile) :
    chooseConfiguration tables d .medium = search tables d .medium := rfl

theorem chooseConfiguration_high (tables : ModTable) (d : Tile) :
    chooseConfiguration tables d .high = refine tables d (search tables d .high) := rfl

/-- Settles O40: low's combination is one of medium's, each of medium's is no worse at high, and the
refinement never makes the result worse. -/
theorem qualityOrdersTotalError : Obligations.QualityOrdersTotalError := by
  intro tables ditherOn p
  simp only [chooseConfiguration_low, chooseConfiguration_medium, chooseConfiguration_high]
  exact ⟨search_medium_le_low _ _, (refine_total_le _ _ _).trans (search_high_le_medium _ _)⟩

/-- The refinement of high leaves the mode the search selected. -/
theorem chooseConfiguration_mode (tables : ModTable) (d : Tile) (q : Quality) :
    (chooseConfiguration tables d q).mode = (search tables d q).mode := by
  cases q with
  | low => rw [chooseConfiguration_low]
  | medium => rw [chooseConfiguration_medium]
  | high => rw [chooseConfiguration_high, refine_mode]

theorem deltaOk_iff (x y : Rgb) :
    deltaOk x y = true ↔ ∀ v ∈ [y.r - x.r, y.g - x.g, y.b - x.b], -4 ≤ v ∧ v ≤ 3 := by
  simp only [deltaOk, Bool.and_eq_true, deltaInRange_iff, and_assoc, List.forall_mem_cons, List.not_mem_nil,
    IsEmpty.forall_iff, forall_const, and_true]

/-- R73: above low, both differential combinations are in the list. -/
theorem dif_mem_combos {q : Quality} (hq : q ≠ .low) (flip : Bool) : (Mode.dif, flip) ∈ combos q := by
  cases q with
  | low => exact absurd rfl hq
  | medium => cases flip <;> decide
  | high => cases flip <;> decide

/-- R73: no individual combination stands before a differential one. -/
theorem combos_dif_first (q : Quality) : (combos q).Pairwise fun x y => x.1 = .ind → y.1 ≠ .dif := by
  cases q <;> decide

/-- R73: what is scanned before an individual combination holds both differential ones. -/
theorem dif_mem_of_split {q : Quality} (hq : q ≠ .low) {f : Bool}
    {before after : List (Mode × Bool)} (hlist : combos q = before ++ (.ind, f) :: after)
    (flip : Bool) : (Mode.dif, flip) ∈ before := by
  have hmem := dif_mem_combos hq flip
  have hfirst := combos_dif_first q
  rw [hlist] at hmem hfirst
  have hafter := (List.pairwise_cons.mp (List.pairwise_append.mp hfirst).2.1).1
  rcases List.mem_append.mp hmem with hmem | hmem
  · exact hmem
  · rcases List.mem_cons.mp hmem with heq | hmem
    · cases heq
    · exact absurd rfl (hafter _ hmem rfl)

/-- R77, R82: where the search answers an individual combination, it is one that is strictly better than
every representable differential combination. -/
theorem exists_evaluateInd_of_search_ind {tables : ModTable} {d : Tile} {q : Quality} (hq : q ≠ .low)
    (hmode : (search tables d q).mode = .ind) :
    ∃ f, ∀ flip c, evaluateDif tables d q flip = some c → (evaluateInd tables d q f).total < c.total := by
  obtain ⟨before, ⟨m, f⟩, after, hlist, hchosen, hbefore, -⟩ := search_split tables d q
  obtain rfl : m = .ind := (congrArg Prod.fst (evaluate_combo hchosen)).symm.trans hmode
  rw [evaluate_ind, Option.some.injEq] at hchosen
  rw [← hchosen] at hbefore
  exact ⟨f, fun flip c hc => hbefore _ (dif_mem_of_split hq hlist flip) c hc⟩

/-- Settles O41: an individual answer of the search would be strictly better than the pair. -/
theorem diffModeWinsAtTheBoundary : Obligations.DiffModeWinsAtTheBoundary := by
  refine ⟨fun x y => (deltaOk_iff x y).mpr, fun tables d q flip a b hq ha hb hok hle => ?_⟩
  rw [chooseConfiguration_mode]
  cases hmode : (search tables d q).mode with
  | dif => rfl
  | ind =>
    obtain ⟨f, hbetter⟩ := exists_evaluateInd_of_search_ind hq hmode
    obtain ⟨c, hc, hpair⟩ := evaluateDif_le_pair tables (mem_codePairs.mpr ⟨⟨ha, hb⟩, hok⟩)
    exact absurd ((hpair.trans (hle f)).trans_lt (hbetter flip c hc)) (lt_irrefl _)

end Sys2Proof.Machine
end

section
/-!
PROOF. Statements of COMPRESS: the QUALITY codes (R71), the whole next state (R70, R79), and what the block
depends on (R80, R86).
-/

namespace Sys2Proof.Machine

theorem exec_compress (q : BitVec 2) (ditherOn : Bool) (s : State) :
    exec (.compress q ditherOn) s = execCompress q ditherOn s := rfl

/-- R70: COMPRESS after INIT. -/
theorem execCompress_of_initDone (q : BitVec 2) (ditherOn : Bool) {s : State} (hinit : s.status.initDone = true) :
    execCompress q ditherOn s =
      .next (s.writeOutBlock (compressBlock s.modTable (qualityOf q) ditherOn (readPixels s))).commandDone := by
  simp [execCompress, hinit]

/-- R71: the field QUALITY acts through the quality it names alone. -/
theorem execCompress_congr {q q' : BitVec 2} (h : qualityOf q = qualityOf q') (ditherOn : Bool) (s : State) :
    execCompress q ditherOn s = execCompress q' ditherOn s := by
  simp only [execCompress, h]

/-- Settles O42: code 3 names the same quality as code 2. -/
theorem qualityCodeThreeRunsAsHigh : Obligations.QualityCodeThreeRunsAsHigh :=
  ⟨rfl, rfl, rfl, rfl, fun ditherOn s => execCompress_congr (q := 3#2) (q' := 2#2) rfl ditherOn s⟩

/-- The word of input pixel i, an unwritten byte of it as its free value (R127, U3). -/
def inputWord (s : State) (i : Fin 16) : Word := s.shown (.inPix i) s.inPix[i]

theorem readPixels_eq_ofFn (s : State) : readPixels s = Vector.ofFn fun i => rgbOfWord (inputWord s i) := rfl

theorem inputWord_of_written {s : State} {i : Fin 16} (h : (s.inPix[i]).written = 0xF#4) :
    inputWord s i = (s.inPix[i]).value :=
  s.shown_of_written _ h

theorem inputWord_lane {s : State} {i : Fin 16} {lane : Nat} (hlane : lane < 4)
    (h : (s.inPix[i]).written.getLsbD lane = true) :
    (inputWord s i).extractLsb' (8 * lane) 8 = (s.inPix[i]).value.extractLsb' (8 * lane) 8 :=
  DataReg.wordShown_lane _ _ _ _ hlane h

/-- Settles O43: the tile is the colour bytes of the input words, whose written lanes are the registers'. -/
theorem compressWritesOutBlockOnly : Obligations.CompressWritesOutBlockOnly := by
  intro s hinit
  refine ⟨fun i => ((inputWord s i).extractLsb' 0 8, (inputWord s i).extractLsb' 8 8, (inputWord s i).extractLsb' 16 8),
    fun i => ⟨inputWord_lane (lane := 0) (by decide), inputWord_lane (lane := 1) (by decide),
      inputWord_lane (lane := 2) (by decide)⟩, fun q ditherOn => ?_⟩
  exact execCompress_of_initDone q ditherOn hinit

/-- R26, R80: the A byte of a pixel word is not read. -/
theorem rgbOfWord_congr {v w : Word} (h : v.extractLsb' 0 24 = w.extractLsb' 0 24) : rgbOfWord v = rgbOfWord w := by
  have hlane : ∀ start, start + 8 ≤ 24 → v.extractLsb' start 8 = w.extractLsb' start 8 := by
    intro start hstart
    have hbytes := congrArg (BitVec.extractLsb' start 8) h
    rwa [BitVec.extractLsb'_extractLsb'_of_le hstart, BitVec.extractLsb'_extractLsb'_of_le hstart] at hbytes
  simp only [rgbOfWord, hlane 0 (by decide), hlane 8 (by decide), hlane 16 (by decide)]

theorem readPixels_congr {s t : State} (hs : ∀ i : Fin 16, (s.inPix[i]).written = 0xF#4)
    (ht : ∀ i : Fin 16, (t.inPix[i]).written = 0xF#4)
    (h : ∀ i : Fin 16, (s.inPix[i]).value.extractLsb' 0 24 = (t.inPix[i]).value.extractLsb' 0 24) :
    readPixels s = readPixels t := by
  simp only [readPixels_eq_ofFn, inputWord_of_written (hs _), inputWord_of_written (ht _), rgbOfWord_congr (h _)]

/-- Settles O44: both states read one tile, so both write the block of that tile. -/
theorem compressIgnoresAllButColour : Obligations.CompressIgnoresAllButColour := by
  intro s t s' t' q ditherOn hs ht hsw htw htables hcolour hs' ht'
  rw [exec_compress, execCompress_of_initDone q ditherOn hs, readPixels_congr hsw htw hcolour, htables] at hs'
  rw [exec_compress, execCompress_of_initDone q ditherOn ht] at ht'
  cases hs'
  cases ht'
  exact ⟨rfl, rfl⟩

end Sys2Proof.Machine
end

section
/-!
PROOF. The statement of the chosen block as the decoder sees it (R85): what every chosen configuration is (the
selector's choices for representable codes), the packed block unpacked (R100 to R107), and the squared error
of its reconstruction.
-/

namespace Sys2Proof.Machine

/-! ### Chosen configurations are the selector's choices for representable codes -/

/-- The subblock w of a configuration. -/
def Configuration.subChoice (c : Configuration) : Sub → SubChoice
  | .one => c.sub1
  | .two => c.sub2

/-- R51, R64: a choice is the selector's for its own code triple, which the mode has. -/
structure SubChoice.SelectedFor (tables : ModTable) (pixels : List Rgb) (m : Mode) (choice : SubChoice) : Prop where
  eq_select : choice = select tables pixels m choice.code
  code_inRange : rgbInRange m choice.code = true

/-- R54, R64: both subblocks are so chosen for their pixels, and a differential pair satisfies the delta
constraint. -/
structure Configuration.SelectedFor (tables : ModTable) (d : Tile) (c : Configuration) : Prop where
  choice : ∀ w, (c.subChoice w).SelectedFor tables (subPixels d c.flip w) c.mode
  deltaOk : c.mode = .dif → deltaOk c.sub1.code c.sub2.code = true

theorem select_selectedFor (tables : ModTable) (pixels : List Rgb) {m : Mode} {code : Rgb}
    (h : rgbInRange m code = true) : (select tables pixels m code).SelectedFor tables pixels m :=
  ⟨rfl, h⟩

theorem subCandidates_inRange {q : Quality} {m : Mode} {pixels : List Rgb} {a : Rgb}
    (h : a ∈ subCandidates q m pixels) : rgbInRange m a = true :=
  candidates_inRange (quantizeRgb_inRange _ _) h

theorem argmin_evaluated_selectedFor (tables : ModTable) (pixels : List Rgb) (q : Quality) (m : Mode) :
    (argmin SubChoice.err (evaluated tables pixels q m).1 (evaluated tables pixels q m).2).SelectedFor
      tables pixels m := by
  have hmem := argmin_mem SubChoice.err (evaluated tables pixels q m).1 (evaluated tables pixels q m).2
  rw [evaluated_eq_map_select] at hmem
  obtain ⟨a, ha, hselect⟩ := List.mem_map.mp hmem
  rw [← hselect]
  exact select_selectedFor tables pixels (subCandidates_inRange ha)

theorem evaluateInd_selectedFor (tables : ModTable) (d : Tile) (q : Quality) (flip : Bool) :
    (evaluateInd tables d q flip).SelectedFor tables d where
  choice
    | .one => argmin_evaluated_selectedFor tables (subPixels d flip .one) q .ind
    | .two => argmin_evaluated_selectedFor tables (subPixels d flip .two) q .ind
  deltaOk := nofun

theorem difConfiguration_selectedFor (tables : ModTable) {d : Tile} {q : Quality} {flip : Bool} {ab : Rgb × Rgb}
    (h : ab ∈ codePairs d q flip) : (difConfiguration tables d flip ab).SelectedFor tables d :=
  have ⟨⟨ha, hb⟩, hok⟩ := mem_codePairs.mp h
  { choice
      | .one => select_selectedFor tables _ (subCandidates_inRange ha)
      | .two => select_selectedFor tables _ (subCandidates_inRange hb)
    deltaOk := fun _ => hok }

theorem evaluate_selectedFor {tables : ModTable} {d : Tile} {q : Quality} {combo : Mode × Bool} {c : Configuration}
    (h : evaluate tables d q combo = some c) : c.SelectedFor tables d := by
  obtain ⟨m, flip⟩ := combo
  cases m with
  | ind =>
    rw [evaluate_ind, Option.some.injEq] at h
    exact h ▸ evaluateInd_selectedFor tables d q flip
  | dif =>
    rw [evaluate_dif] at h
    obtain ⟨ab, hab, rfl⟩ := evaluateDif_eq_some h
    exact difConfiguration_selectedFor tables hab

theorem search_selectedFor (tables : ModTable) (d : Tile) (q : Quality) :
    (search tables d q).SelectedFor tables d := by
  obtain ⟨before, chosen, after, -, hchosen, -⟩ := search_split tables d q
  exact evaluate_selectedFor hchosen

/-- R78: the refinement quantizes anew and selects, and keeps the result only if it is representable. -/
theorem refine_selectedFor {tables : ModTable} {d : Tile} {best : Configuration} (h : best.SelectedFor tables d) :
    (refine tables d best).SelectedFor tables d := by
  rcases refine_cases tables d best with hr | ⟨hr, hkept, -⟩ <;> rw [hr]
  · exact h
  · exact {
      choice
        | .one => select_selectedFor tables _ (quantizeRgb_inRange _ _)
        | .two => select_selectedFor tables _ (quantizeRgb_inRange _ _)
      deltaOk := fun hmode => hkept.resolve_left fun hind => nomatch hmode.symm.trans hind }

theorem chooseConfiguration_selectedFor (tables : ModTable) (d : Tile) (q : Quality) :
    (chooseConfiguration tables d q).SelectedFor tables d := by
  cases q with
  | low =>
    rw [chooseConfiguration_low]
    exact search_selectedFor tables d .low
  | medium =>
    rw [chooseConfiguration_medium]
    exact search_selectedFor tables d .medium
  | high =>
    rw [chooseConfiguration_high]
    exact refine_selectedFor (search_selectedFor tables d .high)

/-! ### The packed block unpacked (R100 to R107) -/

theorem ofBool_msb_append_lsb (k : BitVec 2) : BitVec.ofBool (k.getLsbD 1) ++ BitVec.ofBool (k.getLsbD 0) = k := by
  revert k; decide

/-- R103, R104: the packer puts the two bits of pixel i's index where the unpacker looks for them. -/
theorem indexFromField_pack (c : Configuration) (i : Fin 16) :
    indexFromField (packMsb c) (packLsb c) i = c.indexOf i := by
  have hpixel : pixelAt (Fin.ofNat 16 (positionOf i).val) = i := by
    rw [Fin.ofNat_val_eq_self, pixelAt_positionOf]
  simp only [indexFromField, packMsb, packLsb, bitsOf_getLsbD, (positionOf i).isLt, decide_true, Bool.true_and,
    hpixel, ofBool_msb_append_lsb]

theorem toNat_ofInt_of_lt {w : Nat} {v : Int} (h0 : 0 ≤ v) (h1 : v < 2 ^ w) : ((BitVec.ofInt w v).toNat : Int) = v := by
  rw [BitVec.toNat_ofInt, Int.toNat_of_nonneg (Int.emod_nonneg _ (by positivity))]
  exact Int.emod_eq_of_lt h0 (by exact_mod_cast h1)

theorem rgbInRange_iff (m : Mode) (x : Rgb) : rgbInRange m x = true ↔ ChannelsIn 0 (maxCode m) x := by
  simp only [rgbInRange, Bool.and_eq_true, codeInRange_iff, channelsIn_iff, and_assoc]

/-- R101, R105: a code of the mode comes back from its 4-bit fields, and in differential mode from 5 bits. -/
theorem rgb_toNat_ofInt {w : Nat} {m : Mode} (hw : (maxCode m : Int) < 2 ^ w) {x : Rgb} (h : rgbInRange m x = true) :
    (⟨(BitVec.ofInt w x.r).toNat, (BitVec.ofInt w x.g).toNat, (BitVec.ofInt w x.b).toNat⟩ : Rgb) = x := by
  obtain ⟨⟨hr0, hr1⟩, ⟨hg0, hg1⟩, hb0, hb1⟩ := (channelsIn_iff _ _ _).mp ((rgbInRange_iff m x).mp h)
  rw [toNat_ofInt_of_lt hr0 (by omega), toNat_ofInt_of_lt hg0 (by omega), toNat_ofInt_of_lt hb0 (by omega)]

/-- What the decoder reconstructs from after the packer: the expanded codes, the tables, flip and indices. -/
def Configuration.unpacked (c : Configuration) : Unpacked where
  base1 := expandRgb c.mode c.sub1.code
  base2 := expandRgb c.mode c.sub2.code
  table1 := c.sub1.table
  table2 := c.sub2.table
  flip := c.flip
  idxMsb := packMsb c
  idxLsb := packLsb c

/-- R64, R85: what a configuration reconstructs at pixel i. -/
def Configuration.pixel (tables : ModTable) (c : Configuration) (i : Fin 16) : Rgb :=
  recon tables (expandRgb c.mode (c.subChoice (subOf c.flip i)).code) (c.subChoice (subOf c.flip i)).table
    (c.indexOf i)

theorem pixelOf_unpacked (tables : ModTable) (c : Configuration) (i : Fin 16) :
    pixelOf tables c.unpacked i = c.pixel tables i := by
  simp only [pixelOf, Configuration.unpacked, Configuration.pixel, indexFromField_pack]
  cases subOf c.flip i <;> rfl

theorem unpackInd_packInd {c : Configuration} (hmode : c.mode = .ind)
    (h1 : rgbInRange .ind c.sub1.code = true) (h2 : rgbInRange .ind c.sub2.code = true) :
    unpackInd (packInd c) = c.unpacked := by
  have hwidth : (maxCode .ind : Int) < 2 ^ 4 := by decide
  simp only [unpackInd, packInd, rgb_toNat_ofInt hwidth h1, rgb_toNat_ofInt hwidth h2, Configuration.unpacked, hmode]

theorem diffCode1_packDiff {c : Configuration} (h : rgbInRange .dif c.sub1.code = true) :
    diffCode1 (packDiff c) = c.sub1.code :=
  rgb_toNat_ofInt (m := .dif) (by decide) h

/-- R102, R106: the deltas added to the first codes are the second codes. -/
theorem diffCode2raw_packDiff {c : Configuration} (h : rgbInRange .dif c.sub1.code = true) :
    diffCode2raw (packDiff c) = c.sub2.code := by
  rw [diffCode2raw, diffCode1_packDiff h]
  simp only [packDiff, add_sub_cancel]

theorem unpackDiff_packDiff (overflow : DiffOverflow) {c : Configuration} (hmode : c.mode = .dif)
    (h1 : rgbInRange .dif c.sub1.code = true) (h2 : rgbInRange .dif c.sub2.code = true) :
    unpackDiff overflow (packDiff c) = some c.unpacked := by
  have hcode2 : diffCode2 overflow (packDiff c) = some c.sub2.code := by
    simp only [diffCode2, diffCode2raw_packDiff h1, h2, if_true]
  simp only [unpackDiff, hcode2, diffCode1_packDiff h1, Configuration.unpacked, hmode]
  rfl

theorem packDiff_wf {c : Configuration} (h : deltaOk c.sub1.code c.sub2.code = true) :
    (Instr.etc1Diff (packDiff c)).wf = true := h

theorem runBlock_encodeInd (b : IndBlock) (s : State) : runBlock (encodeInd b) s = execEtc1Individual b s := by
  rw [← exec_decodeBlock, decodeBlock_encodeInd]; rfl

theorem runBlock_encodeDiff {b : DiffBlock} (h : (Instr.etc1Diff b).wf = true) (s : State) :
    runBlock (encodeDiff b) s = execEtc1Diff b s := by
  rw [← exec_decodeBlock, decodeBlock_encodeDiff h]; rfl

/-- R110: the packed block of a representable configuration decodes to its reconstruction, whatever
DIFF_OVERFLOW is. -/
theorem runBlock_pack {c : Configuration} (h1 : rgbInRange c.mode c.sub1.code = true)
    (h2 : rgbInRange c.mode c.sub2.code = true) (hdelta : c.mode = .dif → deltaOk c.sub1.code c.sub2.code = true)
    (s : State) : runBlock (pack c) s = .next (s.writeOutRgb (Vector.ofFn (c.pixel s.modTable))) := by
  have hpixels : pixelsOf s.modTable c.unpacked = Vector.ofFn (c.pixel s.modTable) :=
    congrArg Vector.ofFn (funext (pixelOf_unpacked s.modTable c))
  cases hmode : c.mode with
  | ind =>
    rw [hmode] at h1 h2
    simp only [pack, hmode, runBlock_encodeInd, execEtc1Individual, unpackInd_packInd hmode h1 h2, hpixels]
  | dif =>
    rw [hmode] at h1 h2
    simp only [pack, hmode, runBlock_encodeDiff (packDiff_wf (hdelta hmode)), execEtc1Diff,
      unpackDiff_packDiff _ hmode h1 h2, hpixels]

/-! ### The squared error of the reconstruction (R76, R85) -/

/-- R33: the two subblocks are the tile. -/
theorem members_perm (flip : Bool) : (members flip .one ++ members flip .two).Perm pixelNumbers := by
  cases flip <;> decide

theorem sum_pixelNumbers (flip : Bool) (f : Fin 16 → Int) :
    (pixelNumbers.map f).sum = ((members flip .one).map f).sum + ((members flip .two).map f).sum := by
  rw [← ((members_perm flip).map f).sum_eq, List.map_append, List.sum_append]

/-- R103: the index of a pixel is the entry its subblock's list holds for it. -/
theorem indexOf_eq {c : Configuration} {w : Sub} {i : Fin 16} {k : Fin 16 → BitVec 2} (hi : subOf c.flip i = w)
    (hks : (c.subChoice w).ks = (members c.flip w).map k) : c.indexOf i = k i := by
  have hlist : c.indexOf i = (((members c.flip w).zip (c.subChoice w).ks).lookup i).getD 0#2 := by
    simp only [Configuration.indexOf, hi]
    cases w <;> rfl
  rw [hlist, hks, List.zip_eq_zipWith, List.zipWith_map_right, List.zipWith_self,
    List.lookup_graph k ((mem_members _ _ _).mpr hi), Option.getD_some]

section SelectedChoice

variable {tables : ModTable} {pixels : List Rgb} {m : Mode} {choice : SubChoice}

/-- R64: the index of each pixel is its best one for the reported table. -/
theorem SubChoice.SelectedFor.ks_eq (h : choice.SelectedFor tables pixels m) :
    choice.ks = pixels.map (bestIndex tables (expandRgb m choice.code) choice.table) := by
  have heq := h.eq_select
  generalize choice.code = code at heq ⊢
  subst heq
  rfl

theorem SubChoice.SelectedFor.err_eq (h : choice.SelectedFor tables pixels m) :
    choice.err = tableError tables (expandRgb m choice.code) choice.table pixels := by
  have heq := h.eq_select
  generalize choice.code = code at heq ⊢
  subst heq
  rfl

end SelectedChoice

/-- R60, R62: the error a selected subblock reports is that of its reconstruction. -/
theorem Configuration.SelectedFor.sum_squaredError {tables : ModTable} {d : Tile} {c : Configuration}
    (h : c.SelectedFor tables d) (w : Sub) :
    ((members c.flip w).map fun i => squaredError (c.pixel tables i) d[i]).sum = (c.subChoice w).err := by
  have hks := (h.choice w).ks_eq
  rw [(h.choice w).err_eq, tableError, subPixels, List.map_map]
  rw [subPixels, List.map_map] at hks
  refine congrArg List.sum (List.map_congr_left fun i hi => ?_)
  have hsub := (mem_members c.flip w i).mp hi
  rw [Configuration.pixel, hsub, indexOf_eq hsub hks]
  rfl

/-- Settles O50: a chosen configuration is representable, so its block decodes to its reconstruction, and the
errors the selector reports are those of that reconstruction. -/
theorem decodedErrorIsTheTotal : Obligations.DecodedErrorIsTheTotal := by
  intro s q d c chosen decoded
  have hc : c.SelectedFor s.modTable d := chooseConfiguration_selectedFor s.modTable d q
  have hdecoded : decoded = Vector.ofFn (c.pixel s.modTable) := by
    refine congrArg Vector.ofFn (funext fun i => ?_)
    simp only [Configuration.pixel, chosen]
    cases subOf c.flip i <;> rfl
  have hpixel : ∀ i : Fin 16, decoded[i] = c.pixel s.modTable i := by
    intro i
    rw [hdecoded, Fin.getElem_fin, Vector.getElem_ofFn]
  constructor
  · rw [hdecoded]
    exact runBlock_pack (hc.choice .one).code_inRange (hc.choice .two).code_inRange hc.deltaOk s
  · simp only [hpixel]
    rw [sum_pixelNumbers c.flip, hc.sum_squaredError .one, hc.sum_squaredError .two]
    rfl

end Sys2Proof.Machine
end

section
/-!
PROOF. Statements of the dither: the shares of one pixel's error (R93), the blocks the dither leaves (R90, R95),
and one step of the scan, its results and how far they are from the input (R91, R92, R94).
-/

namespace Sys2Proof.Machine

/-! ### The shares of a pixel's error (R93) -/

@[simp] theorem addShare_length (acc : List Int) (k : Nat) (share : Int) : (addShare acc k share).length = acc.length :=
  List.length_modify ..

@[simp] theorem addShare_zero (acc : List Int) (k : Nat) : addShare acc k 0 = acc :=
  (congrArg (acc.modify k) (funext Int.add_zero)).trans (List.modify_id k acc)

/-- What an accumulator holds after a share for accumulator k that is given only under the condition c. -/
theorem ite_addShare_getD (c : Prop) [Decidable c] (acc : List Int) (k : Nat) (share : Int) {j : Nat}
    (hj : j < acc.length) :
    (if c then addShare acc k share else acc).getD j 0 = acc.getD j 0 + if c ∧ k = j then share else 0 := by
  by_cases hc : c
  · by_cases hk : k = j <;> simp [hc, hk, hj, addShare]
  · simp [hc]

@[simp] theorem spreadError_length (i : Nat) (e : Int) (acc : List Int) : (spreadError i e acc).length = acc.length := by
  simp only [spreadError, apply_ite List.length, addShare_length, ite_self]

/-- No error, no change. -/
@[simp] theorem spreadError_zero (i : Nat) (acc : List Int) : spreadError i 0 acc = acc := by
  simp only [spreadError, mul_zero, addShare_zero, ite_self]

/-- R93: the weight, in sixteenths, with which the error of pixel i goes to accumulator j. -/
def shareWeight (i j : Nat) : Int :=
  if j % 4 = i % 4 + 1 ∧ j / 4 = i / 4 then 7
  else if j % 4 + 1 = i % 4 ∧ j / 4 = i / 4 + 1 then 3
  else if j % 4 = i % 4 ∧ j / 4 = i / 4 + 1 then 5
  else if j % 4 = i % 4 + 1 ∧ j / 4 = i / 4 + 1 then 1
  else 0

/-- A neighbour's number and the test that it is in the tile are its row and its column. -/
theorem spreadError_getD (i : Nat) (e : Int) {acc : List Int} (hlen : acc.length = 16) {j : Nat} (hj : j < 16) :
    (spreadError i e acc).getD j 0 = acc.getD j 0 + shareWeight i j * e := by
  have hright : (i % 4 < 3 ∧ i + 1 = j) ↔ (j % 4 = i % 4 + 1 ∧ j / 4 = i / 4) := by omega
  have hdownLeft : ((i / 4 < 3 ∧ 0 < i % 4) ∧ i + 3 = j) ↔ (j % 4 + 1 = i % 4 ∧ j / 4 = i / 4 + 1) := by omega
  have hdown : (i / 4 < 3 ∧ i + 4 = j) ↔ (j % 4 = i % 4 ∧ j / 4 = i / 4 + 1) := by omega
  have hdownRight : ((i / 4 < 3 ∧ i % 4 < 3) ∧ i + 5 = j) ↔ (j % 4 = i % 4 + 1 ∧ j / 4 = i / 4 + 1) := by omega
  have hj' : j < acc.length := hlen ▸ hj
  simp only [spreadError]
  rw [ite_addShare_getD, ite_addShare_getD, ite_addShare_getD, ite_addShare_getD _ _ _ _ hj']
  · simp only [hright, hdownLeft, hdown, hdownRight, shareWeight]
    split_ifs <;> omega
  all_goals simpa only [apply_ite List.length, addShare_length, ite_self]

/-- Settles O47: x and y are the remainder and the quotient of a pixel's number by 4. -/
theorem errorSharesGoToNeighbours : Obligations.ErrorSharesGoToNeighbours := by
  intro acc e x y x' y' hlen
  refine ⟨(spreadError_length ..).trans hlen, ?_⟩
  have hcolumn : ∀ u v : Fin 4, (4 * v.val + u.val) % 4 = u.val := by omega
  have hrow : ∀ u v : Fin 4, (4 * v.val + u.val) / 4 = v.val := by omega
  rw [spreadError_getD _ e hlen (by omega)]
  simp only [shareWeight, hcolumn, hrow, ite_mul, zero_mul]

/-! ### One pixel (R92) -/

/-- R35: a level of the 5-bit grid. -/
def IsLevel5 (v : Int) : Prop := ∃ x : BitVec 5, v = expand5 x.toNat

theorem nearestLevel5_isLevel5 (v : Int) : IsLevel5 (nearestLevel5 v) := by
  obtain ⟨h0, h31⟩ := quantize_range (8 * v) .dif
  refine ⟨BitVec.ofInt 5 (quantize (8 * v) .dif), ?_⟩
  rw [toNat_ofInt_of_lt h0 (h31.trans_lt (by decide)), nearestLevel5]

/-- R51: no code's level is nearer than the one the quantizer answers. -/
theorem nearestLevel5_le (v : Int) {c : Int} (h0 : 0 ≤ c) (h31 : c ≤ 31) :
    (nearestLevel5 v - v).natAbs ≤ (expand5 c - v).natAbs := by
  have hnearest := quantize_nearest (8 * v) .dif h0 h31
  simp only [levelDistance, expand] at hnearest
  unfold nearestLevel5
  omega

theorem IsLevel5.nearestLevel5_eq {v : Int} (h : IsLevel5 v) : nearestLevel5 v = v := by
  obtain ⟨x, rfl⟩ := h
  have hle := nearestLevel5_le (expand5 x.toNat) (c := x.toNat) (by omega) (by omega)
  omega

theorem IsLevel5.range {v : Int} (h : IsLevel5 v) : 0 ≤ v ∧ v ≤ 255 := by
  obtain ⟨x, rfl⟩ := h
  unfold expand5
  omega

/-- R94: |e| ≤ 4. The levels lie 33/4 apart on average, so the code (4v + 18) / 33 has a level at most 4 away. -/
theorem nearestLevel5_near {v : Int} (h : 0 ≤ v ∧ v ≤ 255) : |nearestLevel5 v - v| ≤ 4 := by
  have hle := nearestLevel5_le v (c := (4 * v + 18) / 33) (by omega) (by omega)
  rw [abs_le]
  unfold expand5 at hle
  omega

theorem corrected_eq (value acc : Int) : corrected value acc = max 0 (min 255 (value + (acc + 8) / 16)) :=
  clamp_eq_max_min (by decide) _

/-- R92: a correction of 0 leaves a channel value. -/
theorem corrected_zero {value : Int} (h : 0 ≤ value ∧ value ≤ 255) : corrected value 0 = value := by
  rw [corrected_eq]
  omega

theorem corrected_range (value acc : Int) : 0 ≤ corrected value acc ∧ corrected value acc ≤ 255 :=
  clamp_mem_range (by decide) _

/-- R94: an accumulator in [-64, 64] moves a channel value by at most 4. -/
theorem corrected_near {value acc : Int} (h : 0 ≤ value ∧ value ≤ 255) (hacc : |acc| ≤ 64) :
    |corrected value acc - value| ≤ 4 := by
  rw [abs_le] at hacc ⊢
  rw [corrected_eq]
  omega

/-! ### The scan of a channel (R91) -/

theorem ditherScan_cons (i : Nat) (acc : List Int) (value : Int) (rest : List Int) :
    ditherScan i acc (value :: rest) =
      nearestLevel5 (corrected value (acc.getD i 0)) ::
        ditherScan (i + 1) (spreadError i
          (corrected value (acc.getD i 0) - nearestLevel5 (corrected value (acc.getD i 0))) acc) rest := rfl

/-- R92: every result is a 5-bit level. -/
theorem ditherScan_isLevel5 (values : List Int) (i : Nat) (acc : List Int) :
    ∀ q ∈ ditherScan i acc values, IsLevel5 q := by
  induction values generalizing i acc with
  | nil => simp [ditherScan]
  | cons value rest ih =>
    rw [ditherScan_cons, List.forall_mem_cons]
    exact ⟨nearestLevel5_isLevel5 _, ih _ _⟩

/-- R95 (2): on 5-bit levels no error arises, so the accumulators stay 0 and nothing changes. -/
theorem ditherScan_of_isLevel5 {values : List Int} (h : ∀ v ∈ values, IsLevel5 v) (i n : Nat) :
    ditherScan i (List.replicate n 0) values = values := by
  induction values generalizing i with
  | nil => rfl
  | cons value rest ih =>
    obtain ⟨hvalue, hrest⟩ := List.forall_mem_cons.mp h
    have hacc : (List.replicate n (0 : Int)).getD i 0 = 0 := by
      rw [List.getD_eq_getElem?_getD, List.getElem?_getD_replicate_default_eq]
    rw [ditherScan_cons, hacc, corrected_zero hvalue.range, hvalue.nearestLevel5_eq, sub_self, spreadError_zero,
      ih hrest]

/-! ### The accumulators' bound (R94) -/

/-- The weights of the shares that accumulator j has received when the scan comes to pixel i. -/
def receivedWeight : Nat → Nat → Int
  | 0, _ => 0
  | i + 1, j => receivedWeight i j + shareWeight i j

/-- R94: a pixel's shares weigh at most 16 in all. -/
theorem receivedWeight_le : ∀ i < 16, receivedWeight i i ≤ 16 := by decide

theorem shareWeight_nonneg (i j : Nat) : 0 ≤ shareWeight i j := by
  unfold shareWeight
  split_ifs <;> decide

/-- R94: the accumulators when the scan comes to pixel i, each error so far being in [-4, 4]. -/
structure AccumulatorsBefore (i : Nat) (acc : List Int) : Prop where
  length : acc.length = 16
  bound : ∀ j < 16, |acc.getD j 0| ≤ 4 * receivedWeight i j

theorem AccumulatorsBefore.start : AccumulatorsBefore 0 (List.replicate 16 0) :=
  ⟨rfl, by decide⟩

theorem AccumulatorsBefore.spread {i : Nat} {acc : List Int} (h : AccumulatorsBefore i acc) {e : Int} (he : |e| ≤ 4) :
    AccumulatorsBefore (i + 1) (spreadError i e acc) where
  length := (spreadError_length ..).trans h.length
  bound j hj := by
    rw [spreadError_getD i e h.length hj]
    calc |acc.getD j 0 + shareWeight i j * e|
        ≤ |acc.getD j 0| + |shareWeight i j * e| := abs_add_le _ _
      _ = |acc.getD j 0| + shareWeight i j * |e| := by rw [abs_mul, abs_of_nonneg (shareWeight_nonneg i j)]
      _ ≤ 4 * receivedWeight i j + shareWeight i j * 4 :=
          add_le_add (h.bound j hj) (mul_le_mul_of_nonneg_left he (shareWeight_nonneg i j))
      _ = 4 * receivedWeight (i + 1) j := by rw [receivedWeight]; ring

/-- R94: at its own pixel an accumulator is in [-64, 64]. -/
theorem AccumulatorsBefore.abs_getD_le {i : Nat} {acc : List Int} (h : AccumulatorsBefore i acc) (hi : i < 16) :
    |acc.getD i 0| ≤ 64 := by
  have hbound := h.bound i hi
  have hweight := receivedWeight_le i hi
  omega

/-- R94: each result is within 4 of the corrected value, and that within 4 of the input. -/
theorem ditherScan_near {values : List Int} (h : ∀ v ∈ values, 0 ≤ v ∧ v ≤ 255) {i : Nat} {acc : List Int}
    (hacc : AccumulatorsBefore i acc) (hlen : i + values.length ≤ 16) :
    List.Forall₂ (fun q v => |q - v| ≤ 8) (ditherScan i acc values) values := by
  induction values generalizing i acc with
  | nil => exact .nil
  | cons value rest ih =>
    obtain ⟨hvalue, hrest⟩ := List.forall_mem_cons.mp h
    rw [List.length_cons] at hlen
    rw [ditherScan_cons]
    have hcorrected := corrected_near hvalue (hacc.abs_getD_le (by omega))
    have hlevel := nearestLevel5_near (corrected_range value (acc.getD i 0))
    refine .cons ?_ (ih hrest (hacc.spread ?_) (by omega))
    · calc |nearestLevel5 (corrected value (acc.getD i 0)) - value|
          ≤ |nearestLevel5 (corrected value (acc.getD i 0)) - corrected value (acc.getD i 0)| +
              |corrected value (acc.getD i 0) - value| := abs_sub_le _ _ _
        _ ≤ 4 + 4 := add_le_add hlevel hcorrected
        _ = 8 := by norm_num
    · rwa [abs_sub_comm]

theorem ditherScan_length (values : List Int) (i : Nat) (acc : List Int) :
    (ditherScan i acc values).length = values.length := by
  induction values generalizing i acc with
  | nil => rfl
  | cons value rest ih => rw [ditherScan_cons, List.length_cons, ih, List.length_cons]

/-! ### The dithered tile (R90) -/

/-- One channel of a tile's 16 pixels, in row-major order. -/
def channelValues (p : Tile) (ch : Rgb → Int) : List Int := pixelNumbers.map fun i => ch p[i]

@[simp] theorem channelValues_length (p : Tile) (ch : Rgb → Int) : (channelValues p ch).length = 16 :=
  List.length_map ..

theorem toList_map_eq_channelValues (p : Tile) (ch : Rgb → Int) : p.toList.map ch = channelValues p ch := by
  have hnumbers : pixelNumbers = List.finRange 16 := by decide
  exact List.ext_getElem (by simp) fun i _ _ => by simp [channelValues, hnumbers]

theorem channelValues_getElem? (p : Tile) (ch : Rgb → Int) (i : Fin 16) :
    (channelValues p ch)[i.val]? = some (ch p[i]) := by
  rw [← toList_map_eq_channelValues]
  simp

theorem forall_mem_channelValues {P : Int → Prop} {p : Tile} {ch : Rgb → Int} (h : ∀ i : Fin 16, P (ch p[i])) :
    ∀ v ∈ channelValues p ch, P v := by
  intro v hv
  obtain ⟨i, -, rfl⟩ := List.mem_map.mp hv
  exact h i

/-- The bypass of R90. -/
theorem dither_of_bypass {p : Tile} (h : isFlat p = true ∨ onGrid4 p = true) : dither p = p := by
  rw [dither, if_pos (by simpa using h)]

theorem dither_eq_or_scanned (p : Tile) : dither p = p ∨ isFlat p = false ∧ onGrid4 p = false := by
  cases hflat : isFlat p with
  | true => exact .inl (dither_of_bypass (.inl hflat))
  | false =>
    cases hgrid : onGrid4 p with
    | true => exact .inl (dither_of_bypass (.inr hgrid))
    | false => exact .inr ⟨rfl, rfl⟩

/-- R91: outside the bypass of R90, a pixel's channels are the results of the three scans. -/
theorem dither_getElem {p : Tile} (hflat : isFlat p = false) (hgrid : onGrid4 p = false) (i : Fin 16) :
    (dither p)[i] =
      { r := (ditherChannel (channelValues p Rgb.r)).getD i 0
        g := (ditherChannel (channelValues p Rgb.g)).getD i 0
        b := (ditherChannel (channelValues p Rgb.b)).getD i 0 } := by
  simp [dither, hflat, hgrid, toList_map_eq_channelValues]

theorem ditherChannel_getElem? (p : Tile) (ch : Rgb → Int) (i : Fin 16) :
    (ditherChannel (channelValues p ch))[i.val]? = some ((ditherChannel (channelValues p ch)).getD i 0) := by
  have hi : i.val < (ditherChannel (channelValues p ch)).length := by
    rw [ditherChannel, ditherScan_length, channelValues_length]
    exact i.isLt
  rw [List.getD_eq_getElem _ _ hi, List.getElem?_eq_getElem hi]

theorem ditherChannel_isLevel5 (p : Tile) (ch : Rgb → Int) (i : Fin 16) :
    IsLevel5 ((ditherChannel (channelValues p ch)).getD i 0) :=
  ditherScan_isLevel5 _ _ _ _ (List.mem_of_getElem? (ditherChannel_getElem? p ch i))

theorem ditherChannel_near {p : Tile} {ch : Rgb → Int} (h : ∀ i : Fin 16, 0 ≤ ch p[i] ∧ ch p[i] ≤ 255) (i : Fin 16) :
    |(ditherChannel (channelValues p ch)).getD i 0 - ch p[i]| ≤ 8 := by
  have hnear : List.Forall₂ (fun q v => |q - v| ≤ 8) (ditherChannel (channelValues p ch)) (channelValues p ch) :=
    ditherScan_near (forall_mem_channelValues h) .start (by simp)
  have hi : i.val < (channelValues p ch).length := by simp
  have hvalue := channelValues_getElem? p ch i
  rw [List.getElem?_eq_getElem hi, Option.some_inj] at hvalue
  rw [List.getD_eq_getElem _ _ (hi.trans_eq hnear.length_eq.symm), ← hvalue]
  exact hnear.get _ hi

theorem ditherChannel_of_isLevel5 {p : Tile} {ch : Rgb → Int} (h : ∀ i : Fin 16, IsLevel5 (ch p[i])) (i : Fin 16) :
    (ditherChannel (channelValues p ch)).getD i 0 = ch p[i] := by
  rw [ditherChannel, ditherScan_of_isLevel5 (forall_mem_channelValues h), List.getD_eq_getElem?_getD,
    channelValues_getElem?, Option.getD_some]

theorem isFlat_of_forall {p : Tile} (h : ∀ i j : Fin 16, p[i] = p[j]) : isFlat p = true :=
  List.all_eq_true.mpr fun i _ => beq_iff_eq.mpr (h i 0)

theorem onGrid4_of_forall {p : Tile} (h : ∀ i : Fin 16, p[i].r % 17 = 0 ∧ p[i].g % 17 = 0 ∧ p[i].b % 17 = 0) :
    onGrid4 p = true :=
  List.all_eq_true.mpr fun i _ => by
    rw [Bool.and_eq_true, Bool.and_eq_true, beq_iff_eq, beq_iff_eq, beq_iff_eq, and_assoc]
    exact h i

/-- R95 (2). -/
theorem dither_of_isLevel5 {p : Tile}
    (h : ∀ i : Fin 16, IsLevel5 p[i].r ∧ IsLevel5 p[i].g ∧ IsLevel5 p[i].b) : dither p = p := by
  rcases dither_eq_or_scanned p with heq | ⟨hflat, hgrid⟩
  · exact heq
  · refine Vector.ext fun i hi => ?_
    have hpixel := dither_getElem hflat hgrid ⟨i, hi⟩
    rwa [ditherChannel_of_isLevel5 fun i => (h i).1, ditherChannel_of_isLevel5 fun i => (h i).2.1,
      ditherChannel_of_isLevel5 fun i => (h i).2.2] at hpixel

/-- R94. -/
theorem dither_near {p : Tile} (h : ∀ i : Fin 16, ChannelsIn 0 255 p[i]) (i : Fin 16) :
    |(dither p)[i].r - p[i].r| ≤ 8 ∧ |(dither p)[i].g - p[i].g| ≤ 8 ∧ |(dither p)[i].b - p[i].b| ≤ 8 := by
  rcases dither_eq_or_scanned p with heq | ⟨hflat, hgrid⟩
  · simp [heq]
  · simp only [channelsIn_iff] at h
    rw [dither_getElem hflat hgrid]
    exact ⟨ditherChannel_near (fun i => (h i).1) i, ditherChannel_near (fun i => (h i).2.1) i,
      ditherChannel_near (fun i => (h i).2.2) i⟩

theorem dither_levels5 {p : Tile} (hflat : isFlat p = false) (hgrid : onGrid4 p = false) (i : Fin 16) :
    ∃ x y z : BitVec 5, (dither p)[i] = { r := expand5 x.toNat, g := expand5 y.toNat, b := expand5 z.toNat } := by
  obtain ⟨x, hx⟩ := ditherChannel_isLevel5 p Rgb.r i
  obtain ⟨y, hy⟩ := ditherChannel_isLevel5 p Rgb.g i
  obtain ⟨z, hz⟩ := ditherChannel_isLevel5 p Rgb.b i
  exact ⟨x, y, z, by rw [dither_getElem hflat hgrid, hx, hy, hz]⟩

/-- R72: COMPRESS depends on the dither flag through the quantizer input alone. -/
theorem compressBlock_of_dither_eq {p : Tile} (h : dither p = p) (tables : ModTable) (q : Quality) :
    compressBlock tables q true p = compressBlock tables q false p := by
  simp only [compressBlock, quantizerInput, h, ite_self]

/-- Settles O46: flat and 4-bit blocks take the bypass, and the scan leaves 5-bit levels. -/
theorem ditherLeavesGridBlocks : Obligations.DitherLeavesGridBlocks := by
  intro p h
  have hdither : dither p = p := by
    rcases h with hflat | hgrid4 | hgrid5
    · exact dither_of_bypass (.inl (isFlat_of_forall hflat))
    · exact dither_of_bypass (.inr (onGrid4_of_forall hgrid4))
    · refine dither_of_isLevel5 fun i => ?_
      obtain ⟨x, y, z, hi⟩ := hgrid5 i
      rw [hi]
      exact ⟨⟨x, rfl⟩, ⟨y, rfl⟩, z, rfl⟩
  exact ⟨hdither, compressBlock_of_dither_eq hdither⟩

/-- Settles O48: the bypass moves nothing, and outside it each channel of the tile is the scan's. -/
theorem ditherMovesChannelsAtMostEight : Obligations.DitherMovesChannelsAtMostEight := by
  refine ⟨fun p hrange i => ?_, fun p hflat hgrid => ?_, fun i acc value rest hi => ?_⟩
  · have hin : ∀ i : Fin 16, ChannelsIn 0 255 p[i] := fun i =>
      (channelsIn_iff _ _ _).mpr (by simpa only [and_assoc] using hrange i)
    obtain ⟨hr, hg, hb⟩ := dither_near hin i
    exact ⟨hr, hg, hb, fun hflat hgrid => dither_levels5 hflat hgrid i⟩
  · intro scanned i
    rw [dither_getElem hflat hgrid]
    exact ⟨ditherChannel_getElem? p Rgb.r i, ditherChannel_getElem? p Rgb.g i, ditherChannel_getElem? p Rgb.b i⟩
  · refine ⟨acc[i], corrected value acc[i], _, List.getElem?_eq_getElem hi, corrected_eq _ _, rfl, ?_⟩
    rw [ditherScan_cons, List.getD_eq_getElem _ _ hi]
    rfl

end Sys2Proof.Machine
end

section
/-!
PROOF. Statements of the block codec and DECOMPRESS: VALID (R13, R109), the packed block unpacked (R110), the
pixels of the two block formats (R105 to R107), and DECOMPRESS: what it writes, when it completes and what its
colours depend on (R106, R108, R110).
-/

namespace Sys2Proof.Machine

/-! ### VALID (R13, R109) -/

/-- R30: DECOMPRESS's two words. -/
theorem exists_decodeCommand_eq_decompress_iff (w : Word) :
    (∃ a, decodeCommand w = .ok (.decompress a)) ↔ w = 0x00000003#32 ∨ w = 0x00000083#32 := by
  simp [decodeCommand_eq_ok_iff, decompressWord]

/-- Settles O16: of the command words only DECOMPRESS's changes VALID, and sets it. -/
theorem validSetOnlyByDecompress : Obligations.ValidSetOnlyByDecompress := by
  intro e s t h
  rcases performEvent_status h with ⟨rfl, ht⟩ | ⟨w, rfl, hcommand⟩ | ⟨hw, hr, ht⟩
  · simp [ht, Status.reset]
  · simp only [HostEvent.write.injEq, true_and, ← exists_decodeCommand_eq_decompress_iff]
    generalize t.status = after at hcommand ⊢
    cases hcommand with
    | illegal hd => simp [hd]
    | init hd => simp [hd]
    | early hd hi hinit => simp [hinit]
    | compress hd hinit => simp [hd]
    | decompress hd hinit => simp [hd, hinit]
  · simp [ht, hw, hr]

/-! ### The packed configuration unpacked (R110) -/

/-- Settles O49: the decoder reads back the fields the packer writes (`packInd`, `packDiff`), and each field
holds its value. -/
theorem unpackReturnsPackedConfiguration : Obligations.UnpackReturnsPackedConfiguration := by
  intro c h1 h2 hdelta
  constructor <;> intro hmode <;> rw [hmode] at h1 h2
  · have hwidth : (maxCode .ind : Int) < 2 ^ 4 := by decide
    refine ⟨packInd c, ?_, (rgb_toNat_ofInt hwidth h1).symm, (rgb_toNat_ofInt hwidth h2).symm, rfl, rfl, rfl,
      indexFromField_pack c⟩
    simp only [pack, hmode, decode_blockBytes, decodeBlock_encodeInd]
  · refine ⟨packDiff c, ?_, (diffCode1_packDiff h1).symm, (diffCode2raw_packDiff h1).symm, rfl, rfl, rfl,
      indexFromField_pack c⟩
    simp only [pack, hmode, decode_blockBytes, decodeBlock_encodeDiff (packDiff_wf (hdelta hmode))]

/-! ### The pixels of a block (R105 to R107) -/

theorem exec_etc1Individual (b : IndBlock) (s : State) :
    exec (.etc1Individual b) s = .next (s.writeOutRgb (pixelsOf s.modTable (unpackInd b))) := rfl

theorem exec_etc1Diff_of_some {b : DiffBlock} {s : State} {u : Unpacked}
    (h : unpackDiff s.params.diffOverflow b = some u) :
    exec (.etc1Diff b) s = .next (s.writeOutRgb (pixelsOf s.modTable u)) := by
  simp only [exec, execEtc1Diff, h]

theorem exec_etc1Diff_of_none {b : DiffBlock} {s : State} (h : unpackDiff s.params.diffOverflow b = none) :
    exec (.etc1Diff b) s = .fault .diffOverflow := by
  simp only [exec, execEtc1Diff, h]

/-- R32, R33, R104, R107: pixel i is reconstructed from its half's base and table. -/
theorem pixelOf_eq_ite (tables : ModTable) (u : Unpacked) (i : Fin 16) :
    pixelOf tables u i =
      if (if u.flip then i.val / 4 < 2 else i.val % 4 < 2) then
        recon tables u.base1 u.table1 (indexFromField u.idxMsb u.idxLsb i)
      else recon tables u.base2 u.table2 (indexFromField u.idxMsb u.idxLsb i) := by
  unfold pixelOf
  split <;> rename_i hsub
  · rw [if_pos ((subOf_eq_one_iff _ _).mp hsub)]
  · rw [if_neg ((subOf_eq_two_iff _ _).mp hsub)]

theorem pixelsOf_get (tables : ModTable) (u : Unpacked) (i : Fin 16) : (pixelsOf tables u)[i] = pixelOf tables u i := by
  simp [pixelsOf]

theorem positionOf_val (i : Fin 16) : (positionOf i).val = 4 * (i.val % 4) + i.val / 4 := by
  revert i; decide

/-- R32: the bits of a pixel's index stand at 4 (i mod 4) + i div 4. -/
theorem indexFromField_eq (msb lsb : BitVec 16) (i : Fin 16) :
    indexFromField msb lsb i = BitVec.ofBool (msb.getLsbD (4 * (i.val % 4) + i.val / 4)) ++
      BitVec.ofBool (lsb.getLsbD (4 * (i.val % 4) + i.val / 4)) := by
  rw [indexFromField, positionOf_val]

/-- Settles O51: the writes are `writeOutRgb`'s, the pixels those of `unpackInd`. -/
theorem individualBlockWritesPixels : Obligations.IndividualBlockWritesPixels := by
  intro b s pixel
  have hpixel : ∀ i : Fin 16, (pixelsOf s.modTable (unpackInd b))[i] = pixel i := by
    intro i
    rw [pixelsOf_get, pixelOf_eq_ite, indexFromField_eq]
    rfl
  rw [exec_etc1Individual]
  simp only [State.writeOutRgb, DataReg.storeRgb, hpixel]

/-! ### The codes of a differential block (R106) -/

/-- Every channel clamped to the 5-bit codes (R106). -/
def clampRgb5 (c : Rgb) : Rgb := { r := clamp c.r 0 31, g := clamp c.g 0 31, b := clamp c.b 0 31 }

theorem clampRgb5_of_inRange {c : Rgb} (h : rgbInRange .dif c = true) : clampRgb5 c = c := by
  obtain ⟨r, g, b⟩ := c
  obtain ⟨hr, hg, hb⟩ := (channelsIn_iff _ _ _).mp ((rgbInRange_iff _ _).mp h)
  simp only [maxCode] at hr hg hb
  simp only [clampRgb5, clamp_eq_max_min (show (0 : Int) ≤ 31 by decide), Rgb.mk.injEq]
  omega

theorem diffCode1_inRange (b : DiffBlock) : rgbInRange .dif (diffCode1 b) = true := by
  simp only [rgbInRange_iff, channelsIn_iff, diffCode1, maxCode]
  omega

/-- R106: where the second code is given it is the clamped raw one, which is the raw one inside the range. -/
theorem diffCode2_eq_some {overflow : DiffOverflow} {b : DiffBlock}
    (h : overflow = .clamp ∨ rgbInRange .dif (diffCode2raw b) = true) :
    diffCode2 overflow b = some (clampRgb5 (diffCode2raw b)) := by
  unfold diffCode2
  split <;> rename_i hrange
  · rw [clampRgb5_of_inRange hrange]
  · obtain rfl := h.resolve_right hrange
    rfl

theorem diffCode2_fault_eq_none {b : DiffBlock} (h : ¬rgbInRange .dif (diffCode2raw b) = true) :
    diffCode2 .fault b = none := by
  rw [diffCode2, if_neg h]

/-- R106: what the reconstructor gets from a differential block that does not stop. -/
def unpackedDiff (b : DiffBlock) : Unpacked where
  base1 := expandRgb .dif (clampRgb5 (diffCode1 b))
  base2 := expandRgb .dif (clampRgb5 (diffCode2raw b))
  table1 := b.table1
  table2 := b.table2
  flip := b.flip
  idxMsb := b.idxMsb
  idxLsb := b.idxLsb

theorem unpackDiff_eq_some {overflow : DiffOverflow} {b : DiffBlock}
    (h : overflow = .clamp ∨ rgbInRange .dif (diffCode2raw b) = true) :
    unpackDiff overflow b = some (unpackedDiff b) := by
  simp only [unpackDiff, diffCode2_eq_some h, unpackedDiff, clampRgb5_of_inRange (diffCode1_inRange b)]

theorem unpackDiff_fault_eq_none {b : DiffBlock} (h : ¬rgbInRange .dif (diffCode2raw b) = true) :
    unpackDiff .fault b = none := by
  simp only [unpackDiff, diffCode2_fault_eq_none h]

/-- Settles O52: the statement's range is that of `diffCode2raw`, its levels those of the clamped codes. -/
theorem differentialBlockWritesPixels : Obligations.DifferentialBlockWritesPixels := by
  intro b s inRange level base1 base2 pixel
  have hrange : inRange ↔ rgbInRange .dif (diffCode2raw b) = true := by
    simp only [inRange, rgbInRange_iff, channelsIn_iff, and_assoc]
    rfl
  have hlevel : ∀ c : Rgb, expandRgb .dif (clampRgb5 c) = { r := level c.r, g := level c.g, b := level c.b } := by
    intro c
    simp only [clampRgb5, clamp_eq_max_min (show (0 : Int) ≤ 31 by decide)]
    rfl
  have hpixel : ∀ i : Fin 16, (pixelsOf s.modTable (unpackedDiff b))[i] = pixel i := by
    intro i
    rw [pixelsOf_get, pixelOf_eq_ite, indexFromField_eq]
    simp only [unpackedDiff, hlevel]
    rfl
  rw [hrange]
  refine ⟨fun h => ?_, fun hfault h => exec_etc1Diff_of_none (hfault ▸ unpackDiff_fault_eq_none h)⟩
  rw [exec_etc1Diff_of_some (unpackDiff_eq_some h)]
  simp only [State.writeOutRgb, DataReg.storeRgb, hpixel]

/-! ### One pixel under DECOMPRESS's writes (R17, R108) -/

theorem DataReg.storeRgb_value (p : Rgb) (d : DataReg) :
    (d.storeRgb p).value =
      d.value.extractLsb' 24 8 ++ (BitVec.ofInt 8 p.b ++ BitVec.ofInt 8 p.g ++ BitVec.ofInt 8 p.r) := by
  simp only [DataReg.storeRgb, BitVec.append_assoc, BitVec.cast_eq]

/-- The colour bytes are those of the pixel, whatever the register held. -/
theorem DataReg.storeRgb_colour (p : Rgb) (d : DataReg) :
    (d.storeRgb p).value.extractLsb' 0 24 = BitVec.ofInt 8 p.b ++ BitVec.ofInt 8 p.g ++ BitVec.ofInt 8 p.r := by
  rw [DataReg.storeRgb_value, BitVec.extractLsb'_append_eq_of_add_le (by decide), BitVec.extractLsb'_eq_self]

/-- R17, R108: the word DECOMPRESS leaves in a pixel, its A byte beside its colours. -/
theorem DataReg.storeRgb_then_alpha (preserve : Bool) (p : Rgb) (d : DataReg) :
    (if preserve then d.storeRgb p else (d.storeRgb p).storeAlpha255) = {
      value := (if preserve then d.value.extractLsb' 24 8 else 255#8) ++ (d.storeRgb p).value.extractLsb' 0 24
      written := if preserve then d.written ||| 0x7#4 else 0xF#4 } := by
  cases preserve with
  | true =>
    simp only [if_true, DataReg.storeRgb_colour, ← DataReg.storeRgb_value]
    rfl
  | false =>
    simp only [Bool.false_eq_true, if_false, ← written_rgb_alpha d.written]
    rfl

theorem DataReg.storeAlpha255_alpha (d : DataReg) : d.storeAlpha255.value.extractLsb' 24 8 = 255#8 := by
  rw [DataReg.storeAlpha255, BitVec.extractLsb'_append_eq_of_le (by decide), BitVec.extractLsb'_eq_self]

theorem DataReg.storeAlpha255_colour (d : DataReg) :
    d.storeAlpha255.value.extractLsb' 0 24 = d.value.extractLsb' 0 24 := by
  rw [DataReg.storeAlpha255, BitVec.extractLsb'_append_eq_of_add_le (by decide), BitVec.extractLsb'_eq_self]

/-- R108: the alpha written after the colours leaves them. -/
theorem finishDecompress_colour (preserve : Bool) (pixels : Tile) (s : State) (i : Fin 16) :
    (((finishDecompress preserve (s.writeOutRgb pixels)).outPix)[i]).value.extractLsb' 0 24 =
      BitVec.ofInt 8 pixels[i].b ++ BitVec.ofInt 8 pixels[i].g ++ BitVec.ofInt 8 pixels[i].r := by
  rw [finishDecompress_outPix_get]
  split
  · exact DataReg.storeRgb_colour _ _
  · rw [DataReg.storeAlpha255_colour, DataReg.storeRgb_colour]

/-! ### DECOMPRESS around its block (R108, R109) -/

theorem State.writeOutAlpha_writeOutRgb (preserve : Bool) (pixels : Tile) (s : State) :
    (s.writeOutRgb pixels).writeOutAlpha preserve = { s with
      outPix := Vector.ofFn fun i : Fin 16 =>
        if preserve then (s.outPix[i]).storeRgb pixels[i] else ((s.outPix[i]).storeRgb pixels[i]).storeAlpha255 } := by
  cases preserve with
  | true => simp only [State.writeOutAlpha_true, State.writeOutRgb, if_true]
  | false => simp only [State.writeOutAlpha, State.writeOutRgb_get, Bool.false_eq_true, if_false]; rfl

/-- R108, R109: the whole state after a DECOMPRESS that writes these pixels. -/
theorem finishDecompress_writeOutRgb (preserve : Bool) (pixels : Tile) (s : State) :
    finishDecompress preserve (s.writeOutRgb pixels) = { s with
      outPix := Vector.ofFn fun i : Fin 16 =>
        if preserve then (s.outPix[i]).storeRgb pixels[i] else ((s.outPix[i]).storeRgb pixels[i]).storeAlpha255
      status := { s.status with valid := true, lastErr := .none } } := by
  rw [finishDecompress, State.writeOutAlpha_writeOutRgb]
  rfl

theorem exec_decompress (a : Bool) (s : State) : exec (.decompress a) s = execDecompress a s := rfl

theorem execDecompress_of_runBlock_fault {s : State} {r : Fault} (a : Bool) (hinit : s.status.initDone = true)
    (h : runBlock (readBlock s) s = .fault r) : execDecompress a s = .fault r := by
  simp [execDecompress, hinit, h]

/-- R108: after INIT a DECOMPRESS completes exactly where its block does. -/
theorem execDecompress_next_iff (a : Bool) {s t : State} (hinit : s.status.initDone = true) :
    execDecompress a s = .next t ↔ ∃ u, runBlock (readBlock s) s = .next u ∧ finishDecompress a u = t := by
  cases h : runBlock (readBlock s) s <;> simp [execDecompress, hinit, h]

/-- R15: bits [63:32] of the block operand are IN_BLOCK_HI's where that is written. -/
theorem readBlock_extract_hi {s : State} (h : s.inBlockHi.written = 0xF#4) {start : Nat} (hstart : 32 ≤ start)
    (len : Nat) : (readBlock s).extractLsb' start len = s.inBlockHi.value.extractLsb' (start - 32) len := by
  rw [readBlock, s.shown_of_written _ h, BitVec.extractLsb'_append_eq_of_le hstart]

theorem readBlock_extract_lo {s : State} (h : s.inBlockLo.written = 0xF#4) :
    (readBlock s).extractLsb' 0 32 = s.inBlockLo.value := by
  rw [readBlock, s.shown_of_written _ h, BitVec.extractLsb'_append_eq_of_add_le (by decide),
    BitVec.extractLsb'_eq_self]

/-- Settles O53: the block is `readBlock`'s, and A is written after its colours. -/
theorem decompressRunsTheBlock : Obligations.DecompressRunsTheBlock := by
  intro s hinit
  refine ⟨readBlock s, fun h => ?_, readBlock_extract_lo, fun a => ⟨fun u hu => ?_, fun r hr => ?_⟩⟩
  · rw [readBlock_extract_hi h (le_refl 32), Nat.sub_self, BitVec.extractLsb'_eq_self]
  · rw [exec_decodeBlock] at hu
    rw [exec_decompress, execDecompress_of_runBlock a hinit hu]
    obtain ⟨pixels, rfl⟩ := runBlock_next hu
    simp only [finishDecompress_writeOutRgb, State.writeOutRgb_get, DataReg.storeRgb_then_alpha]
  · rw [exec_decodeBlock] at hr
    exact execDecompress_of_runBlock_fault a hinit hr

/-! ### When DECOMPRESS completes, and the colours it writes (R106, R110) -/

/-- R104 to R107: the pixels of a block, `none` where it overflows and stops. -/
def blockPixels (tables : ModTable) (overflow : DiffOverflow) (blk : Block) : Option Tile :=
  if blk.getLsbD 33 then (unpackDiff overflow (diffFields blk)).map (pixelsOf tables)
  else some (pixelsOf tables (unpackInd (indFields blk)))

/-- R108: a block reads nothing of the state but the table store and DIFF_OVERFLOW. -/
theorem runBlock_next_iff (blk : Block) (s t : State) :
    runBlock blk s = .next t ↔
      ∃ pixels, blockPixels s.modTable s.params.diffOverflow blk = some pixels ∧ s.writeOutRgb pixels = t := by
  unfold runBlock blockPixels
  split
  · unfold execEtc1Diff
    split <;> simp [*]
  · simp [execEtc1Individual]

theorem exists_blockPixels {tables : ModTable} {overflow : DiffOverflow} {blk : Block}
    (h : overflow = .clamp ∨ blk.getLsbD 33 = false ∨ rgbInRange .dif (diffCode2raw (diffFields blk)) = true) :
    ∃ pixels, blockPixels tables overflow blk = some pixels := by
  unfold blockPixels
  split <;> rename_i hformat
  · rw [unpackDiff_eq_some (h.imp_right fun h => h.resolve_left (by simp [hformat]))]
    exact ⟨_, rfl⟩
  · exact ⟨_, rfl⟩

theorem execDecompress_next_iff_blockPixels (a : Bool) {s t : State} (hinit : s.status.initDone = true) :
    execDecompress a s = .next t ↔
      ∃ pixels, blockPixels s.modTable s.params.diffOverflow (readBlock s) = some pixels ∧
        finishDecompress a (s.writeOutRgb pixels) = t := by
  simp [execDecompress_next_iff a hinit, runBlock_next_iff]

theorem readBlock_formatBit {s : State} (h : s.inBlockHi.written = 0xF#4) :
    (readBlock s).getLsbD 33 = s.inBlockHi.value.getLsbD 1 := by
  rw [BitVec.getLsbD_eq_extractLsb', readBlock_extract_hi h (by decide), BitVec.getLsbD_eq_extractLsb']

/-- R31, R106: the second codes of the block operand stand in IN_BLOCK_HI. -/
theorem diffCode2raw_readBlock {s : State} (h : s.inBlockHi.written = 0xF#4) :
    let code := fun field : Nat × Nat =>
      ((s.inBlockHi.value.extractLsb' field.1 5).toNat : Int) + (s.inBlockHi.value.extractLsb' field.2 3).toInt
    diffCode2raw (diffFields (readBlock s)) = { r := code (27, 24), g := code (19, 16), b := code (11, 8) } := by
  simp (disch := decide) only [diffCode2raw, diffCode1, diffFields, readBlock_extract_hi h, sext3_eq_toInt]

/-- Settles O54: under each premise the block has pixels. -/
theorem decompressNeverRejectsABlock : Obligations.DecompressNeverRejectsABlock := by
  intro s a hi hinit h
  have hcomplete : s.params.diffOverflow = .clamp ∨ (readBlock s).getLsbD 33 = false ∨
      rgbInRange .dif (diffCode2raw (diffFields (readBlock s))) = true := by
    refine h.imp_right fun ⟨hwritten, hblock⟩ => ?_
    rw [readBlock_formatBit hwritten, diffCode2raw_readBlock hwritten, rgbInRange_iff]
    refine hblock.imp_right fun hfields => ?_
    simpa [ChannelsIn, maxCode] using hfields
  obtain ⟨pixels, hpixels⟩ := exists_blockPixels (tables := s.modTable) hcomplete
  refine ⟨_, (execDecompress_next_iff_blockPixels a hinit).mpr ⟨pixels, hpixels, rfl⟩, ?_, ?_, ?_⟩
  · simp [finishDecompress]
  · simp [finishDecompress]
  · rintro rfl i
    rw [finishDecompress_outPix_get]
    exact ⟨written_rgb_alpha _, DataReg.storeAlpha255_alpha _⟩

/-- Settles O55: both states read one block, so both write the colours of its pixels. -/
theorem decompressDependsOnlyOnBlock : Obligations.DecompressDependsOnlyOnBlock := by
  intro s t s' t' a a' hs ht hhi hlo heqhi heqlo htables hoverflow hs' ht' i
  have hblock : readBlock s = readBlock t := by
    rw [readBlock_of_written s hhi hlo, readBlock_of_written t (heqhi ▸ hhi) (heqlo ▸ hlo), heqhi, heqlo]
  obtain ⟨pixels, hpixels, rfl⟩ := (execDecompress_next_iff_blockPixels a hs).mp hs'
  obtain ⟨pixels', hpixels', rfl⟩ := (execDecompress_next_iff_blockPixels a' ht).mp ht'
  rw [htables, hoverflow, hblock, hpixels'] at hpixels
  obtain rfl := Option.some.inj hpixels
  rw [finishDecompress_colour, finishDecompress_colour]

end Sys2Proof.Machine
end

section
/-!
PROOF. Statements of the exceptions chapter: illegal accesses and unwritten registers where the unit goes on
(R127, spec/93 U2, U3), which events it accepts and runs that are never stopped (R126), command errors (R121 to
R124), and codecs side by side on a platform (R132, R133).
-/

namespace Sys2Proof.Machine

/-! ### The forms of an event (R25, R140) -/

theorem accessedReg_eq_some_iff (off width : Nat) (n : RegName) :
    accessedReg off width = some n ↔ off = regOffset n ∧ width = 4 := by
  unfold accessedReg
  split_ifs with hwidth
  · simp [hwidth, regAt_eq_some_iff]
  · simp [hwidth]

/-- R24, R25, R140: an event is a reset, an illegal access, a read or write of one register, or a
write of a command word, legal or not. -/
inductive EventForm : HostEvent → Prop
  | reset : EventForm .reset
  | illegalRead {off width : Nat} (ha : accessedReg off width = none) : EventForm (.read off width)
  | illegalWrite {off width : Nat} (v : Word) (ha : accessedReg off width = none) : EventForm (.write off width v)
  | readReg (n : RegName) : EventForm (.read (regOffset n) 4)
  | writeReg {n : RegName} (v : Word) (hn : n ≠ .cmd) : EventForm (.write (regOffset n) 4 v)
  | command {w : Word} {i : Instr} (hd : decodeCommand w = .ok i) : EventForm (.write 0 4 w)
  | illegalCommand {w : Word} (hd : ∀ i, decodeCommand w ≠ .ok i) : EventForm (.write 0 4 w)

theorem eventForm (e : HostEvent) : EventForm e := by
  cases e with
  | reset => exact .reset
  | read off width =>
    cases ha : accessedReg off width with
    | none => exact .illegalRead ha
    | some n =>
      obtain ⟨rfl, rfl⟩ := (accessedReg_eq_some_iff _ _ _).mp ha
      exact .readReg n
  | write off width v =>
    cases ha : accessedReg off width with
    | none => exact .illegalWrite v ha
    | some n =>
      obtain ⟨rfl, rfl⟩ := (accessedReg_eq_some_iff _ _ _).mp ha
      by_cases hn : n = .cmd
      · subst hn
        cases hd : decodeCommand v with
        | ok i => exact .command hd
        | error r => exact .illegalCommand (by simp [hd])
      · exact .writeReg v hn

/-! ### Where the spec leaves the access open (R127, spec/93 U2, U3) -/

theorem performEvent_read_of_illegal {off width : Nat} (h : accessedReg off width = none) (s : State) :
    performEvent (.read off width) s = illegalRead s := by
  simp [performEvent, hostRead, h]

theorem performEvent_write_of_illegal {off width : Nat} (h : accessedReg off width = none) (v : Word) (s : State) :
    performEvent (.write off width v) s = illegalWrite s := by
  simp [performEvent, hostWrite, h]

theorem illegalRead_of_goOn {s : State} (h : s.params.illegalAccess = .goOn) :
    illegalRead s = .next { s with
      hostData := some (Config.unspecifiedResponse s.params.unitId s.draws)
      draws := s.draws + 1 } := by
  simp [illegalRead, h]

theorem illegalWrite_of_goOn {s : State} (h : s.params.illegalAccess = .goOn) :
    illegalWrite s = .next { s with hostData := none } := by
  simp [illegalWrite, h]

/-- Settles O19: no register is accessed, so the parameter alone decides. -/
theorem illegalAccessesMayGoOn : Obligations.IllegalAccessesMayGoOn := by
  refine ⟨fun s off width v hparam hillegal => ?_, fun s off width v hparam hoff => ?_⟩
  · rw [← accessedReg_eq_none_iff] at hillegal
    rw [performEvent_read_of_illegal hillegal, performEvent_write_of_illegal hillegal]
    exact ⟨⟨_, illegalRead_of_goOn hparam⟩, illegalWrite_of_goOn hparam⟩
  · have hillegal : accessedReg off width = none := (accessedReg_eq_none_iff off width).mpr (by omega)
    exact ⟨(performEvent_read_busFault_iff _ _ _).mpr ⟨hillegal, hparam⟩,
      (performEvent_write_busFault_iff _ _ _ _).mpr ⟨hillegal, hparam⟩⟩

/-- Settles O25: the read shows the register lane by lane. -/
theorem anyValueReadsKeepWrittenBytes : Obligations.AnyValueReadsKeepWrittenBytes := by
  intro s n d hd
  refine ⟨readWord s n, performEvent_read_regOffset n s, fun lane hlane hwritten => ?_⟩
  rw [readWord_dataReg s hd]
  exact DataReg.wordShown_lane _ _ _ d hlane hwritten

/-! ### The accepted instructions and events (R126) -/

/-- R106: a block has pixels unless it is differential and its second code is refused. -/
theorem exists_blockPixels_iff (tables : ModTable) (overflow : DiffOverflow) (blk : Block) :
    (∃ pixels, blockPixels tables overflow blk = some pixels) ↔
      blk.getLsbD 33 = false ∨ (unpackDiff overflow (diffFields blk)).isSome = true := by
  unfold blockPixels
  split <;> rename_i hformat
  · simp [hformat, Option.isSome_iff_exists]
  · exact iff_of_true ⟨_, rfl⟩ (.inl (Bool.eq_false_of_not_eq_true hformat))

/-- R108: after INIT a DECOMPRESS completes exactly where its block has pixels. -/
theorem exists_execDecompress_next_iff (a : Bool) {s : State} (hinit : s.status.initDone = true) :
    (∃ t, execDecompress a s = .next t) ↔
      ∃ pixels, blockPixels s.modTable s.params.diffOverflow (readBlock s) = some pixels := by
  simp only [execDecompress_next_iff_blockPixels a hinit]
  exact ⟨fun ⟨_, pixels, hpixels, _⟩ => ⟨pixels, hpixels⟩, fun ⟨pixels, hpixels⟩ => ⟨_, pixels, hpixels, rfl⟩⟩

theorem exec_compress_of_not_initDone (q : BitVec 2) (d : Bool) {s : State} (h : s.status.initDone = false) :
    exec (.compress q d) s = .next (s.raiseError .notInitialized) := by
  simp [exec_compress, execCompress, h]

theorem exec_decompress_of_not_initDone (a : Bool) {s : State} (h : s.status.initDone = false) :
    exec (.decompress a) s = .next (s.raiseError .notInitialized) := by
  simp [exec_decompress, execDecompress, h]

theorem acceptsInstr_decompress_iff (s : State) (a : Bool) :
    acceptsInstr s (.decompress a) = true ↔ s.status.initDone = false ∨
      (readBlock s).getLsbD 33 = false ∨
        (unpackDiff s.params.diffOverflow (diffFields (readBlock s))).isSome = true := by
  simp only [acceptsInstr, Bool.or_eq_true, Bool.not_eq_true', or_assoc]

theorem exists_exec_next_iff (i : Instr) (s : State) :
    (∃ t, exec i s = .next t) ↔ acceptsInstr s i = true := by
  cases i with
  | init => exact iff_of_true ⟨_, exec_init s⟩ rfl
  | compress q d =>
    refine iff_of_true ?_ rfl
    cases hinit : s.status.initDone with
    | false => exact ⟨_, exec_compress_of_not_initDone q d hinit⟩
    | true => exact ⟨_, execCompress_of_initDone q d hinit⟩
  | decompress a =>
    rw [acceptsInstr_decompress_iff]
    cases hinit : s.status.initDone with
    | false => exact iff_of_true ⟨_, exec_decompress_of_not_initDone a hinit⟩ (.inl rfl)
    | true =>
      simp only [exec_decompress]
      rw [exists_execDecompress_next_iff a hinit, exists_blockPixels_iff]
      simp only [reduceCtorEq, false_or]
  | etc1Individual b => exact iff_of_true ⟨_, exec_etc1Individual b s⟩ rfl
  | etc1Diff b =>
    cases hunpack : unpackDiff s.params.diffOverflow b with
    | none => simp [exec_etc1Diff_of_none hunpack, acceptsInstr, hunpack]
    | some u => simp [exec_etc1Diff_of_some hunpack, acceptsInstr, hunpack]

/-- The bus's last answer is no operand of an instruction. -/
theorem acceptsInstr_hostData (s : State) (answer : Option Word) (i : Instr) :
    acceptsInstr { s with hostData := answer } i = acceptsInstr s i := by
  cases i <;> rfl

theorem exists_illegalRead_next_iff (s : State) :
    (∃ t, illegalRead s = .next t) ↔ s.params.illegalAccess = .goOn := by
  unfold illegalRead
  split <;> simp [*]

theorem exists_illegalWrite_next_iff (s : State) :
    (∃ t, illegalWrite s = .next t) ↔ s.params.illegalAccess = .goOn := by
  unfold illegalWrite
  split <;> simp [*]

/-! What `acceptsEvent` says of each form of an event. -/

theorem acceptsEvent_read_of_illegal {off width : Nat} (h : accessedReg off width = none) (s : State) :
    acceptsEvent s (.read off width) = true ↔ s.params.illegalAccess = .goOn := by
  simp [acceptsEvent, h]

theorem acceptsEvent_write_of_illegal {off width : Nat} (h : accessedReg off width = none) (v : Word) (s : State) :
    acceptsEvent s (.write off width v) = true ↔ s.params.illegalAccess = .goOn := by
  simp [acceptsEvent, h]

theorem acceptsEvent_read_regOffset (n : RegName) (s : State) :
    acceptsEvent s (.read (regOffset n) 4) = true := by
  simp only [acceptsEvent, accessedReg_regOffset]

theorem acceptsEvent_write_regOffset {n : RegName} (hn : n ≠ .cmd) (v : Word) (s : State) :
    acceptsEvent s (.write (regOffset n) 4 v) = true := by
  simp only [acceptsEvent, accessedReg_regOffset]

theorem acceptsEvent_command {w : Word} {i : Instr} (h : decodeCommand w = .ok i) (s : State) :
    acceptsEvent s (.write 0 4 w) = acceptsInstr s i := by
  simp [acceptsEvent, accessedReg, regAt, h]

theorem acceptsEvent_of_illegalCommand {w : Word} (h : ∀ i, decodeCommand w ≠ .ok i) (s : State) :
    acceptsEvent s (.write 0 4 w) = true := by
  simp [acceptsEvent, accessedReg, regAt, decodeCommand_eq_error h]

theorem exists_performEvent_next_iff (e : HostEvent) (s : State) :
    (∃ t, performEvent e s = .next t) ↔ acceptsEvent s e = true := by
  cases eventForm e with
  | reset => exact iff_of_true ⟨_, rfl⟩ rfl
  | illegalRead ha =>
    rw [performEvent_read_of_illegal ha, exists_illegalRead_next_iff, acceptsEvent_read_of_illegal ha]
  | illegalWrite v ha =>
    rw [performEvent_write_of_illegal ha, exists_illegalWrite_next_iff, acceptsEvent_write_of_illegal ha]
  | readReg n => exact iff_of_true ⟨_, performEvent_read_regOffset n s⟩ (acceptsEvent_read_regOffset n s)
  | writeReg v hn =>
    exact iff_of_true ⟨_, performEvent_write_regOffset hn v s⟩ (acceptsEvent_write_regOffset hn v s)
  | command hd =>
    rw [performEvent_write_cmd, runCommand_of_decodes hd, exists_exec_next_iff, acceptsInstr_hostData,
      acceptsEvent_command hd]
  | illegalCommand hd =>
    rw [performEvent_write_cmd]
    exact iff_of_true ⟨_, runCommand_of_illegal hd _⟩ (acceptsEvent_of_illegalCommand hd s)

/-- R127: where the table has no entry for an instruction, no block overflows. -/
theorem acceptsInstr_of_instrFault {s : State} {i : Instr} (h : instrFault s i = none) :
    acceptsInstr s i = true := by
  cases i with
  | init => rfl
  | compress q d => rfl
  | decompress a =>
    rw [acceptsInstr_decompress_iff]
    simp only [instrFault] at h
    split_ifs at h with hinit hwritten hblock
    · exact .inl hinit
    · rw [not_and_or, Bool.not_eq_true, ← ne_eq, ← Option.isSome_iff_ne_none] at hblock
      exact .inr hblock
  | etc1Individual b => rfl
  | etc1Diff b => simpa [instrFault, acceptsInstr, Option.isSome_iff_ne_none] using h

theorem modelFault_read_of_illegal {off width : Nat} (h : accessedReg off width = none) (s : State) :
    modelFault s (.read off width) = some .busFault := by
  simp only [modelFault, h]

theorem modelFault_write_of_illegal {off width : Nat} (h : accessedReg off width = none) (v : Word) (s : State) :
    modelFault s (.write off width v) = some .busFault := by
  simp only [modelFault, h]

theorem acceptsEvent_of_modelFault {s : State} {e : HostEvent} (h : modelFault s e = none) :
    acceptsEvent s e = true := by
  cases eventForm e with
  | reset => rfl
  | illegalRead ha => exact nomatch (modelFault_read_of_illegal ha s).symm.trans h
  | illegalWrite v ha => exact nomatch (modelFault_write_of_illegal ha v s).symm.trans h
  | readReg n => exact acceptsEvent_read_regOffset n s
  | writeReg v hn => exact acceptsEvent_write_regOffset hn v s
  | command hd =>
    rw [acceptsEvent_command hd]
    exact acceptsInstr_of_instrFault ((modelFault_command hd s).symm.trans h)
  | illegalCommand hd => exact acceptsEvent_of_illegalCommand hd s

/-- Settles O26: what the table does not name is accepted, and the strict reading goes on with it too. -/
theorem acceptedEventsAreExactlyTheNextOnes : Obligations.AcceptedEventsAreExactlyTheNextOnes := by
  intro e s
  refine ⟨exists_performEvent_next_iff e s, fun hfault => ?_⟩
  obtain ⟨t, ht⟩ := (exists_performEvent_next_iff e s).mpr (acceptsEvent_of_modelFault hfault)
  exact ⟨t, ht, strictEvent_next hfault ht⟩

/-! ### Runs of legal accesses (R126) -/

/-- R25: a reset, or an access to a register. -/
def IsLegalAccess : HostEvent → Prop
  | .reset => True
  | .read off width => accessedReg off width ≠ none
  | .write off width _ => accessedReg off width ≠ none

/-- R126: a unit that clamps, with only legal accesses to come where an illegal one would stop it. -/
structure State.OnlyLegal (s : State) : Prop where
  clamps : s.params.diffOverflow = .clamp
  legal : s.params.illegalAccess = .goOn ∨ ∀ e ∈ s.queue, IsLegalAccess e

theorem acceptsInstr_of_clamp {s : State} (h : s.params.diffOverflow = .clamp) (i : Instr) :
    acceptsInstr s i = true := by
  have hunpack (b : DiffBlock) : (unpackDiff s.params.diffOverflow b).isSome = true := by
    rw [unpackDiff_eq_some (.inl h)]; rfl
  cases i <;> simp [acceptsInstr, hunpack]

theorem acceptsEvent_of_legal {s : State} {e : HostEvent} (hclamp : s.params.diffOverflow = .clamp)
    (h : s.params.illegalAccess = .goOn ∨ IsLegalAccess e) : acceptsEvent s e = true := by
  cases eventForm e with
  | reset => rfl
  | illegalRead ha => exact (acceptsEvent_read_of_illegal ha s).mpr (h.resolve_right fun hlegal => hlegal ha)
  | illegalWrite v ha => exact (acceptsEvent_write_of_illegal ha v s).mpr (h.resolve_right fun hlegal => hlegal ha)
  | readReg n => exact acceptsEvent_read_regOffset n s
  | writeReg v hn => exact acceptsEvent_write_regOffset hn v s
  | command hd =>
    rw [acceptsEvent_command hd]
    exact acceptsInstr_of_clamp hclamp _
  | illegalCommand hd => exact acceptsEvent_of_illegalCommand hd s

@[simp] theorem finishDecompress_params (preserve : Bool) (s : State) :
    (finishDecompress preserve s).params = s.params := by
  simp [finishDecompress]

@[simp] theorem finishDecompress_queue (preserve : Bool) (s : State) :
    (finishDecompress preserve s).queue = s.queue := by
  simp [finishDecompress]

theorem runCommand_params_queue {w : Word} {s t : State} (h : runCommand w s = .next t) :
    t.params = s.params ∧ t.queue = s.queue := by
  rcases runCommand_next h with ⟨-, rfl⟩ | ⟨-, rfl⟩ | ⟨-, -, rfl⟩ | ⟨-, -, blk, rfl⟩ | ⟨a, -, -, pixels, rfl⟩ <;> simp

/-- R6: no event changes the parameters, or the accesses still to come. -/
theorem performEvent_params_queue {e : HostEvent} {s t : State} (h : performEvent e s = .next t) :
    t.params = s.params ∧ t.queue = s.queue := by
  rcases performEvent_next h with ⟨-, rfl⟩ | ⟨n, -, rfl⟩ | ⟨n, v, -, -, rfl⟩ | ⟨v, -, hrun⟩ |
    ⟨-, ⟨off, width, -, -, rfl⟩ | ⟨off, width, v, -, -, rfl⟩⟩
  · simp
  · exact ⟨rfl, rfl⟩
  · simp
  · exact runCommand_params_queue (s := { s with hostData := none }) hrun
  · exact ⟨rfl, rfl⟩
  · exact ⟨rfl, rfl⟩

theorem State.OnlyLegal.step {s : State} (h : s.OnlyLegal) : ∃ t, step s = .next t ∧ t.OnlyLegal := by
  obtain ⟨hclamp, hlegal⟩ := h
  cases hq : s.queue with
  | nil => exact ⟨s, step_of_idle hq, hclamp, hlegal⟩
  | cons e rest =>
    rw [hq, List.forall_mem_cons] at hlegal
    have haccepts : acceptsEvent { s with queue := rest } e = true :=
      acceptsEvent_of_legal hclamp (hlegal.imp_right And.left)
    obtain ⟨t, ht⟩ := (exists_performEvent_next_iff _ _).mpr haccepts
    obtain ⟨hparams, hqueue⟩ := performEvent_params_queue ht
    refine ⟨t, (step_of_queue hq).trans ht, by rw [hparams]; exact hclamp, ?_⟩
    rw [hparams, hqueue]
    exact hlegal.imp_right And.right

theorem State.OnlyLegal.safeFor (n : Nat) {s : State} (h : s.OnlyLegal) : SafeFor n s := by
  induction n generalizing s with
  | zero => trivial
  | succ n ih =>
    obtain ⟨t, ht, hnext⟩ := h.step
    exact ⟨t, ht, ih hnext⟩

/-- Settles O27: such a unit is one that meets `State.OnlyLegal`, which every step keeps. -/
theorem legalAccessesNeverStopTheUnit : Obligations.LegalAccessesNeverStopTheUnit :=
  fun n _ hclamp hlegal => State.OnlyLegal.safeFor n ⟨hclamp, hlegal⟩

/-! ### Command errors (R121 to R124) -/

/-- R121: a word of none of the three legal forms is no command. -/
theorem decodeCommand_ne_ok_of_not_legal {w : Word}
    (h : ¬((w.extractLsb' 0 4 = 1#4 ∧ w.extractLsb' 4 28 = 0#28) ∨
      (w.extractLsb' 0 4 = 2#4 ∧ w.extractLsb' 7 25 = 0#25) ∨
      (w.extractLsb' 0 4 = 3#4 ∧ w.extractLsb' 8 24 = 0#24 ∧ w.extractLsb' 4 3 = 0#3))) (i : Instr) :
    decodeCommand w ≠ .ok i := by
  obtain ⟨hinit, hcompress, hdecompress⟩ := not_or.mp h |>.imp_right not_or.mp
  rw [decodeCommand, if_neg hinit, if_neg hcompress, if_neg hdecompress]
  nofun

/-- R122: COMPRESS and DECOMPRESS need INIT. -/
theorem runCommand_of_not_initDone {w : Word} {s : State}
    (hlegal : (w.extractLsb' 0 4 = 2#4 ∧ w.extractLsb' 7 25 = 0#25) ∨
      (w.extractLsb' 0 4 = 3#4 ∧ w.extractLsb' 8 24 = 0#24 ∧ w.extractLsb' 4 3 = 0#3))
    (hinit : s.status.initDone = false) : runCommand w s = .next (s.raiseError .notInitialized) := by
  rcases hlegal with ⟨hop, hzero⟩ | ⟨hop, hhigh, hlow⟩
  · rw [← compressWord_fields hop hzero, runCommand_of_decodes (decodeCommand_compressWord _ _)]
    exact exec_compress_of_not_initDone _ _ hinit
  · rw [← decompressWord_field hop hhigh hlow, runCommand_of_decodes (decodeCommand_decompressWord _)]
    exact exec_decompress_of_not_initDone _ hinit

/-- Settles O28: the write to CMD runs its word, and `raiseError` changes the two fields. -/
theorem errorsChangeOnlyStatus : Obligations.ErrorsChangeOnlyStatus := by
  refine fun s w => ⟨fun hillegal => ?_, fun hlegal hinit => ?_⟩
  · rw [performEvent_write_cmd, runCommand_of_illegal (decodeCommand_ne_ok_of_not_legal hillegal)]
    rfl
  · rw [performEvent_write_cmd, runCommand_of_not_initDone (s := { s with hostData := none }) hlegal hinit]
    rfl

/-! ### Codecs side by side (R132, R133) -/

/-- R132: the one way an event at a codec answers a next platform. -/
theorem Platform.deliver_next {p q : Platform} {i : Nat} {e : HostEvent} (h : p.deliver i e = .next q) :
    ∃ sl u, p.slots[i]? = some sl ∧ performEvent e sl.unit = .next u ∧
      q = { slots := p.slots.set i { sl with unit := u } } := by
  unfold Platform.deliver at h
  split at h
  · cases h
  · rename_i sl hsl
    split at h
    · rename_i u hu
      cases h; exact ⟨sl, u, hsl, hu, rfl⟩
    · cases h
    · cases h

/-- Settles O58: the one slot that is set keeps its base. -/
theorem otherCodecsAreUntouched : Obligations.OtherCodecsAreUntouched := by
  intro p q i e h
  obtain ⟨sl, u, hsl, hu, rfl⟩ := Platform.deliver_next h
  obtain ⟨hi, rfl⟩ := List.getElem?_eq_some_iff.mp hsl
  refine ⟨List.length_set, ?_, fun j hj => List.getElem?_set_ne hj.symm,
    _, _, hsl, List.getElem?_set_self hi, hu⟩
  rw [List.map_set, ← List.getElem_map Slot.base (h := by simpa using hi), List.set_getElem_self]

theorem Platform.run_cons_next {p q : Platform} {i : Nat} {e : HostEvent} {rest : List (Nat × HostEvent)}
    (h : p.run ((i, e) :: rest) = .next q) : ∃ p', p.deliver i e = .next p' ∧ p'.run rest = .next q := by
  rw [Platform.run] at h
  split at h
  · rename_i p' hp'
    exact ⟨p', hp', h⟩
  · cases h
  · cases h

theorem runEvents_cons_of_next {s t : State} {e : HostEvent} (h : performEvent e s = .next t)
    (rest : List HostEvent) : runEvents s (e :: rest) = runEvents t rest := by
  simp [runEvents, h]

theorem eventsOf_cons_same (i : Nat) (e : HostEvent) (rest : List (Nat × HostEvent)) :
    eventsOf i ((i, e) :: rest) = e :: eventsOf i rest := by
  simp [eventsOf]

theorem eventsOf_cons_of_ne {i j : Nat} (h : j ≠ i) (e : HostEvent) (rest : List (Nat × HostEvent)) :
    eventsOf i ((j, e) :: rest) = eventsOf i rest := by
  simp [eventsOf, h]

/-- Settles O59, by induction on the schedule: its first event is codec i's own and the first of its events, or
leaves codec i and its events as they are. -/
theorem concurrentUseEqualsSequentialUse : Obligations.ConcurrentUseEqualsSequentialUse := by
  intro schedule
  induction schedule with
  | nil =>
    intro p q h
    cases h
    exact ⟨rfl, fun i sl hsl => ⟨sl.unit, rfl, hsl⟩⟩
  | cons event rest ih =>
    intro p q h
    obtain ⟨j, e⟩ := event
    obtain ⟨p', hdeliver, hrest⟩ := Platform.run_cons_next h
    obtain ⟨own, u, hown, hu, rfl⟩ := Platform.deliver_next hdeliver
    obtain ⟨hlength, hcodecs⟩ := ih _ q hrest
    refine ⟨hlength.trans List.length_set, fun i sl hsl => ?_⟩
    by_cases hij : j = i
    · subst hij
      obtain rfl := Option.some.inj (hsl.symm.trans hown)
      obtain ⟨hj, -⟩ := List.getElem?_eq_some_iff.mp hsl
      rw [eventsOf_cons_same, runEvents_cons_of_next hu]
      exact hcodecs j { sl with unit := u } (List.getElem?_set_self hj)
    · rw [eventsOf_cons_of_ne hij]
      exact hcodecs i sl ((List.getElem?_set_ne hij).trans hsl)

end Sys2Proof.Machine
end

section
/-!
PROOF. Statement of the reset chapter: what the platform's reset leaves of a state (R140, R141).
-/

namespace Sys2Proof.Machine

/-- R140: the reset event always completes, with the unit's platform reset. -/
theorem performEvent_reset (s : State) : performEvent .reset s = .next s.platformReset := rfl

/-- Settles O2: the state written out in the statement is the one `State.platformReset` builds. -/
theorem resetEventRestoresEveryRegister : Obligations.ResetEventRestoresEveryRegister := fun s => by
  rw [performEvent_reset, State.platformReset]

end Sys2Proof.Machine
end
